-- ==== Sys2Proof/Config.lean ====
section
/-! DEFINITION. What an implementation fixes (spec/00_scope.md R6): the one OPEN parameter, `MAX_LEN`. The core
has no open value and so no free value. -/

namespace Sys2Proof

/-- The open part of `MAX_LEN`: no body, so no proof can know it (R6, decision D9; log entry 5). -/
opaque Config.maxLenBeyondOne : Nat

/-- `MAX_LEN`: the largest number of cells the memory can hold, a natural number of at least 1 (R6). -/
def Config.maxLen : Nat := Config.maxLenBeyondOne + 1

end Sys2Proof
end

