-- ==== Sys2Proof/Word.lean ====
section
/-! DEFINITION. The memory cell of the core (spec/00_scope.md R6, R7, R8): one signed integer of 64 bits. -/

namespace Sys2Proof

/-- One memory cell, operand or result: a signed integer of `WORD_BITS = 64` bits (R6, R8). Its value is
`BitVec.toInt`, the two's complement reading; the meanings use nothing but that value (log entry 2). -/
abbrev Word := BitVec 64

/-- The least `Word`, `-2^63` (R8). -/
def Word.minInt : Int := -9223372036854775808

/-- The greatest `Word`, `2^63 - 1` (R8). -/
def Word.maxInt : Int := 9223372036854775807

end Sys2Proof
end

