-- ==== Sys2Proof/Syntax.lean ====
section
/-! DEFINITION. The instructions of the core: one constructor per row of spec/opcode_table.json
(spec/30_encoding.md R57). -/

namespace Sys2Proof

/-- The closed set of three instructions (R57). Every operand is position mode: the address of a cell, never a
literal (R58). -/
inductive Instr where
  /-- `add`, opcode 1: `mem[dest] <- mem[srcA] + mem[srcB]` (R80). -/
  | add (srcA srcB dest : Word)
  /-- `mul`, opcode 2: `mem[dest] <- mem[srcA] * mem[srcB]` (R81). -/
  | mul (srcA srcB dest : Word)
  /-- `halt`, opcode 99: the execution state becomes Halted (R88). -/
  | halt
deriving DecidableEq, Repr

end Sys2Proof
end

