-- ==== Sys2Proof/WellFormed.lean ====
section
/-! DEFINITION. Which instructions, and which runs of cells, are well formed (spec/30_encoding.md R55, R56, R57, R60). -/

namespace Sys2Proof

/-- Every instruction is well formed: an operand cell has no illegal value at decode time, "Every `Word` is accepted
as an operand" (R60). The checks that can fail are those on raw cells, `cellsWf`. -/
def Instr.wf : Instr → Bool
  | .add _ _ _ => true
  | .mul _ _ _ => true
  | .halt => true

/-- Check 1: the opcode cell holds 1, 2 or 99 (R57, R59). -/
def legalOpcode (op : Word) : Bool :=
  op.toInt = 1 || op.toInt = 2 || op.toInt = 99

/-- How many operand cells follow a legal opcode: none after 99, three after 1 and 2 (R55, R56). -/
def operandCells (op : Word) : Nat :=
  if op.toInt = 99 then 0 else 3

/-- A run of cells is exactly one instruction: there is an opcode cell, it is legal (check 1), and the operand
cells are as many as it asks for, neither fewer nor more (check 2). -/
def cellsWf : List Word → Bool
  | [] => false
  | op :: operands => legalOpcode op && operands.length == operandCells op

end Sys2Proof
end

