-- ==== Sys2Proof/Decode.lean ====
section
/-! DEFINITION. The decoder and the encoder (spec/30_encoding.md R54 to R62, spec/40_fetch_decode_execute.md R70),
and the reading of an instruction's bits as spec/opcode_table.json numbers them. -/

namespace Sys2Proof

/-- The decoder's verdict on a legal opcode cell (R70). -/
inductive Opcode where
  | add | mul | halt
deriving DecidableEq, Repr

/-- What the decoder reads from a run of cells. -/
inductive Decoded where
  /-- A whole instruction, and the cells after it. -/
  | instr (i : Instr) (rest : List Word)
  /-- The opcode cell is none of 1, 2 and 99 (R59); `v` is its whole value. -/
  | illegal (v : Word)
  /-- The run ends before the instruction does: cell number `k` of it, counted from 0, is not there. -/
  | missing (k : Nat)
deriving DecidableEq, Repr

/-- The decoder proper: integer equality on the whole opcode cell, total (R57, R70); `none` is an illegal opcode (R59). -/
def decodeOpcode (op : Word) : Option Opcode :=
  if op.toInt = 1 then some .add
  else if op.toInt = 2 then some .mul
  else if op.toInt = 99 then some .halt
  else none

/-- The opcode cell of each opcode (R57). -/
def Opcode.cell : Opcode → Word
  | .add => 1
  | .mul => 2
  | .halt => 99

/-- The length in cells, found from the opcode alone (R61). -/
def Opcode.length : Opcode → Nat
  | .add => 4
  | .mul => 4
  | .halt => 1

/-- The opcode of an instruction. -/
def Instr.opcode : Instr → Opcode
  | .add _ _ _ => .add
  | .mul _ _ _ => .mul
  | .halt => .halt

/-- Format A's three operand cells, after the opcode cell (R55). -/
def decodeFormatA (mk : Word → Word → Word → Instr) : List Word → Decoded
  | a :: b :: d :: rest => .instr (mk a b d) rest
  | short => .missing (1 + short.length)

/-- The decoder over a run of cells: the opcode cell first, the operand cells only once it has chosen add or
multiply (R55, R56, R61, R70). -/
def decode : List Word → Decoded
  | [] => .missing 0
  | op :: rest =>
    match decodeOpcode op with
    | none => .illegal op
    | some .add => decodeFormatA .add rest
    | some .mul => decodeFormatA .mul rest
    | some .halt => .instr .halt rest

/-- The cells of an instruction: format A is opcode, `src_a`, `src_b`, `dest`; format H is the opcode alone (R55, R56). -/
def encode : Instr → List Word
  | .add a b d => [1, a, b, d]
  | .mul a b d => [2, a, b, d]
  | .halt => [99]

/-- One row of spec/opcode_table.json in its bit-level form (R62). -/
structure OpcodeRow where
  matchBits : Word
  mask : Word
  opcode : Opcode
deriving DecidableEq, Repr

/-- spec/opcode_table.json, row by row: its `match` and `mask` (R57, R62). -/
def opcodeTable : List OpcodeRow :=
  [ { matchBits := 0x0000000000000001, mask := 0xFFFFFFFFFFFFFFFF, opcode := .add },
    { matchBits := 0x0000000000000002, mask := 0xFFFFFFFFFFFFFFFF, opcode := .mul },
    { matchBits := 0x0000000000000063, mask := 0xFFFFFFFFFFFFFFFF, opcode := .halt } ]

/-- A table-driven decoder: the opcode of the first row with `c & mask == match` (R62). -/
def tableDecode (c : Word) : Option Opcode :=
  (opcodeTable.find? (fun r => c &&& r.mask == r.matchBits)).map OpcodeRow.opcode

/-- The four cells (the longest instruction) of an instruction whose bits are `w`, bit 0 the least significant
bit of the first cell and each later cell's bits counting on from the cell before; every bit from number `nbits` on is 0
(log entry 15). -/
def tableCells (nbits w : Nat) : List Word :=
  let v := w % 2 ^ nbits
  [BitVec.ofNat 64 v, BitVec.ofNat 64 (v / 2 ^ 64), BitVec.ofNat 64 (v / 2 ^ 128), BitVec.ofNat 64 (v / 2 ^ 192)]

/-- What the decoder reads from an instruction whose bits are `w`, numbered as spec/opcode_table.json numbers them. -/
def decodeTableWord (nbits w : Nat) : Option Instr :=
  match decode (tableCells nbits w) with
  | .instr i _ => some i
  | .illegal _ => none
  | .missing _ => none

end Sys2Proof
end

