-- ==== Sys2Proof/Machine/State.lean ====
section
/-! DEFINITION. The architectural state of one instance, "exactly this tuple" (spec/10_state.md R15), its reset
value (R26), and the reasons a step can stop. -/

namespace Sys2Proof.Machine

/-- The execution state: two values, no payload, no Error state (R21). -/
inductive ExecState where
  | active
  | halted
deriving DecidableEq, Repr

/-- The kind of a core access, as `OutOfRange` records it (spec/60_exceptions.md R94). -/
inductive AccessKind where
  /-- The opcode cell or an operand cell. -/
  | fetch
  /-- The cell at `src_a` or `src_b`. -/
  | read
  /-- The cell at `dest`. -/
  | write
deriving DecidableEq, Repr

/-- The ALU's two operations (spec/41_arithmetic.md R79); `Overflow` records which one it was (R95). -/
inductive AluOp where
  | add
  | mul
deriving DecidableEq, Repr

/-- The fatal outcomes (spec/60_exceptions.md R94, R95): what the fault latch can hold. The step that raises one is a
next state with the latch set (`Machine.raise`, R96); `Machine.step` answers `Host.Outcome.fault` with the recorded one on
every step after it. Safe: the spec itself says the instance does nothing more (log entry 3). -/
inductive Fault where
  /-- `OutOfRange(kind, addr)`: a core access to an address below 0 or at or above `len` (R94). Raised by the opcode
  fetch and by add and multiply (any of their accesses). Safe (D3). -/
  | outOfRange (kind : AccessKind) (addr : Int)
  /-- `Overflow(op, va, vb)`: the exact result on the source values `va`, `vb` is not a `Word` (R95). Raised by add and
  multiply only. Safe (D2). -/
  | overflow (op : AluOp) (va vb : Word)
deriving DecidableEq, Repr

/-- Refusals. No instruction and no step raises one: all three instructions have their meaning. The others are the
host commands the spec itself refuses (spec/70_reset_and_hazards.md R117). -/
inductive Refusal where
  /-- An instruction without a meaning. Raised by no arm of `exec`. Safe. -/
  | notModelled (mnemonic : String)
  /-- LOAD would make `len` greater than `MAX_LEN` (spec/20_memory.md R44). Raised by the host command LOAD. Safe. -/
  | loadTooLong (newLen : Nat)
  /-- READ or WRITE with an index below 0 or at or above `len` (spec/20_memory.md R47). Raised by the host commands READ and
  WRITE. Safe. -/
  | indexOutOfRange (i : Int)
  /-- LOAD, READ or WRITE after a fatal fault (spec/60_exceptions.md R96). Raised by those host commands. Safe. -/
  | afterFatalFault (f : Fault)
  /-- RUN did not end within the bound of spec/40_fetch_decode_execute.md R75. Raised by no run: R75 says that RUN always ends
  within it. Safe (log entry 10). -/
  | runBoundPassed
deriving DecidableEq, Repr

/-- The memory: "finite sequence of `Word`, length `len`" (R15, R27); cell `i` is entry `i` of the list. -/
abbrev Memory := List Word

/-- The form every memory operation keeps: no more cells than `MAX_LEN` (spec/00_scope.md R6). A sequence needs no other
canonical form: equal cells at equal addresses are equal lists (log entry 1). -/
abbrev Memory.wf (m : Memory) : Prop := m.length ≤ Config.maxLen

/-- The architectural state (R15): these four, and `len` as the length of `mem`. -/
structure State where
  /-- The address of the next opcode cell; an unbounded `Nat` (R17, R18). -/
  pc : Nat
  /-- The cells, code and data (R27). -/
  mem : Memory
  /-- Active or Halted (R21). -/
  state : ExecState
  /-- The fault latch (R20). -/
  fault : Option Fault
deriving DecidableEq, Repr

/-- `len`, the current number of cells (R7, R15). -/
def State.len (s : State) : Nat := s.mem.length

/-- A newly constructed instance (R26, R108): every value is the spec's. -/
def State.reset : State :=
  { pc := 0, mem := [], state := .active, fault := none }

end Sys2Proof.Machine
end

