-- ==== Sys2Proof/Machine/Flags.lean ====
section
/-! DEFINITION. The core has no flags (spec/10_state.md R24): nothing is computed here for one. What an arithmetic
result is tested for, its range, and the ALU that applies the test (spec/41_arithmetic.md R79, R83). -/

namespace Sys2Proof.Machine

/-- `fits(v)`: the integer `v` is a `Word` (spec/00_scope.md R8, R9). -/
abbrev fits (v : Int) : Prop := Word.minInt ≤ v ∧ v ≤ Word.maxInt

/-- The exact mathematical sum or product of the two signed operands (R79). -/
def aluExact (op : AluOp) (va vb : Word) : Int :=
  match op with
  | .add => va.toInt + vb.toInt
  | .mul => va.toInt * vb.toInt

/-- The ALU: the exact result where it is a `Word`, else `Overflow(op, va, vb)`; it never wraps, saturates or
truncates (R79, R83). -/
def alu (op : AluOp) (va vb : Word) : Except Fault Word :=
  if fits (aluExact op va vb) then .ok (BitVec.ofInt 64 (aluExact op va vb))
  else .error (.overflow op va vb)

end Sys2Proof.Machine
end

