-- ==== Sys2Proof/Machine/Ops.lean ====
section
/-! DEFINITION. The named operations on state: one write per field, the core's read and write of one cell
(spec/20_memory.md R33, R34), the two ways a step fails (spec/60_exceptions.md R93, R96), and the host's writing of a run
of cells (spec/20_memory.md R42). -/

namespace Sys2Proof.Machine

def State.setPc (s : State) (p : Nat) : State := { s with pc := p }

def State.setMem (s : State) (m : Memory) : State := { s with mem := m }

def State.setState (s : State) (e : ExecState) : State := { s with state := e }

def State.setFault (s : State) (f : Option Fault) : State := { s with fault := f }

/-- The cell at an address, if it exists: cell `a` exists for `0 <= a < len` and for no other `a` (R27, R32). -/
def State.cell? (s : State) (a : Int) : Option Word :=
  if 0 ≤ a then s.mem[a.toNat]? else none

/-- `a` is a valid address (R32). -/
abbrev State.validAddr (s : State) (a : Int) : Prop := 0 ≤ a ∧ a < (s.len : Int)

/-- `MemRead(addr, 1) as kind` (R33): the cell, or `OutOfRange(kind, addr)`; no state changes. -/
def memRead (s : State) (kind : AccessKind) (addr : Int) : Except Fault Word :=
  match s.cell? addr with
  | some w => .ok w
  | none => .error (.outOfRange kind addr)

/-- `MemWrite(addr, 1, v)` (R34): that one cell, or `OutOfRange(Write, addr)`; memory never grows. -/
def memWrite (s : State) (addr : Int) (v : Word) : Except Fault State :=
  if s.validAddr addr then .ok (s.setMem (s.mem.set addr.toNat v))
  else .error (.outOfRange .write addr)

/-- Taking a fatal fault (R96): nothing of the step is committed, and the latch records the outcome. The core has no
other exception entry and no return from one (R100, R101). -/
def raise (s : State) (f : Fault) : State := s.setFault (some f)

/-- How an instruction's effect ends its step: the effect in full, or a fatal fault on the state the step began with
(R96, R100). -/
def finish (s : State) (effect : Except Fault State) : Host.Outcome State Fault Refusal :=
  match effect with
  | .ok t => .next t
  | .error f => .next (raise s f)

/-- The failed decode (R93): `pc` moves past the opcode cell, and nothing else changes (R69, decision D6; log entry 4). -/
def skipIllegal (s : State) : State := s.setPc (s.pc + 1)

/-- `m` with zero-filled cells added until it has at least `n` (R42). -/
def grow (m : Memory) (n : Nat) : Memory := m ++ List.replicate (n - m.length) 0

/-- `m`, grown as far as needed, with the cells `cs` written from index `p` on and every other cell kept. -/
def placeCells (m : Memory) (p : Nat) (cs : List Word) : Memory :=
  (grow m (p + cs.length)).take p ++ cs ++ m.drop (p + cs.length)

end Sys2Proof.Machine
end

