-- ==== Sys2Proof/Machine/Operands.lean ====
section
/-! DEFINITION. The one operand form: position mode (spec/30_encoding.md R58). -/

namespace Sys2Proof.Machine

/-- The address an operand cell names: its whole signed value, not extended, scaled, shifted or based (R58). It can be
negative, and then it is valid nowhere (R32). -/
def operandAddr (operand : Word) : Int := operand.toInt

/-- The value of a source operand (`MemRead(a, 1) as Read`, R80, R81). -/
def readSource (s : State) (operand : Word) : Except Fault Word :=
  memRead s .read (operandAddr operand)

/-- The result written to the `dest` operand (`MemWrite(d, 1, r)`, R80, R81). -/
def writeDest (s : State) (operand : Word) (r : Word) : Except Fault State :=
  memWrite s (operandAddr operand) r

end Sys2Proof.Machine
end

