-- ==== Sys2Proof/Machine/Arithmetic.lean ====
section
/-! DEFINITION. The arithmetic family: add and multiply (spec/41_arithmetic.md R80, R81). -/

namespace Sys2Proof.Machine

/-- The effect the two instructions share, after the fetch of their cells: both reads, the ALU, the one write, then
`pc <- p + 4`, in the order in which the spec checks (R68, R80, R81, R97). -/
def arithmetic (op : AluOp) (a b d : Word) (s : State) : Except Fault State := do
  let va ← readSource s a
  let vb ← readSource s b
  let r ← alu op va vb
  let t ← writeDest s d r
  pure (t.setPc (s.pc + 4))

/-- `add` (R80). -/
def execAdd (a b d : Word) (s : State) : Host.Outcome State Fault Refusal :=
  finish s (arithmetic .add a b d s)

/-- `mul` (R81). -/
def execMul (a b d : Word) (s : State) : Host.Outcome State Fault Refusal :=
  finish s (arithmetic .mul a b d s)

end Sys2Proof.Machine
end

