-- ==== Sys2Proof/Machine/Control.lean ====
section
/-! DEFINITION. The control family: halt (spec/42_control.md R88). There is no other control instruction (R90, R92). -/

namespace Sys2Proof.Machine

/-- `halt` (R88): `pc <- p + 1` and `state <- Halted`; it cannot fault. -/
def execHalt (s : State) : Host.Outcome State Fault Refusal :=
  .next ((s.setPc (s.pc + 1)).setState .halted)

end Sys2Proof.Machine
end

