-- ==== Sys2Proof/Machine/Fetch.lean ====
section
/-! DEFINITION. The fetch phase of a step (spec/40_fetch_decode_execute.md R67, R68): the opcode cell, then, for add and
multiply alone, the three operand cells in order, each a `MemRead as Fetch`. -/

namespace Sys2Proof.Machine

/-- What a fetch phase that raised no fault gives. -/
inductive Fetched where
  /-- A whole instruction. -/
  | instr (i : Instr)
  /-- An illegal opcode, with its value (R59, R93). -/
  | illegal (v : Word)
deriving DecidableEq, Repr

/-- The three operand fetches of format A, from `p + 1`, `p + 2` and `p + 3` in that order (R67). -/
def fetchFormatA (mk : Word → Word → Word → Instr) (s : State) : Except Fault Fetched := do
  let a ← memRead s .fetch ((s.pc + 1 : Nat) : Int)
  let b ← memRead s .fetch ((s.pc + 2 : Nat) : Int)
  let d ← memRead s .fetch ((s.pc + 3 : Nat) : Int)
  pure (.instr (mk a b d))

/-- The fetch phase: opcode fetch, decode, operand fetches (R67, R68, R70). -/
def fetch (s : State) : Except Fault Fetched := do
  let op ← memRead s .fetch (s.pc : Int)
  match decodeOpcode op with
  | none => pure (.illegal op)
  | some .add => fetchFormatA .add s
  | some .mul => fetchFormatA .mul s
  | some .halt => pure (.instr .halt)

end Sys2Proof.Machine
end

