-- ==== Sys2Proof/Machine/Step.lean ====
section
/-! DEFINITION. STEP as a transition (spec/40_fetch_decode_execute.md R66, R68), and the placing of one instruction where
the next step fetches it. What STEP reports to its caller is in Machine/Commands.lean. -/

namespace Sys2Proof.Machine

/-- One STEP (R68). With the latch set it answers the recorded fault and changes nothing (R96); Halted, it does nothing and
succeeds (R66); Active, it fetches and runs one instruction, skips an illegal opcode cell (R93), or takes the fatal fault of
its fetch (R96). -/
def step (s : State) : Host.Outcome State Fault Refusal :=
  match s.fault with
  | some f => .fault f
  | none =>
    match s.state with
    | .halted => .next s
    | .active =>
      match fetch s with
      | .error f => .next (raise s f)
      | .ok (.illegal _) => .next (skipIllegal s)
      | .ok (.instr i) => exec i s

/-- `s` with the instruction whose bits are `w` (`tableCells`) in the four cells from `pc` on. A step fetches only while
Active with the latch clear (R68), so those two are set as well; both are so at reset. Not an operation of the machine: at
reset it stands for the host's LOAD (log entry 6). -/
def State.withFetchWord (s : State) (nbits w : Nat) : State :=
  ((s.setMem (placeCells s.mem s.pc (tableCells nbits w))).setState .active).setFault none

end Sys2Proof.Machine
end

