-- ==== Sys2Proof/Laws/Decode.lean ====
section
/-! SUPPORT. What the decoder's parts do, one lemma each. -/

namespace Sys2Proof

@[simp] theorem decodeOpcode_one : decodeOpcode 1#64 = some .add := by decide
@[simp] theorem decodeOpcode_two : decodeOpcode 2#64 = some .mul := by decide
@[simp] theorem decodeOpcode_ninetyNine : decodeOpcode 99#64 = some .halt := by decide

/-- A `Word` is its signed value. -/
theorem word_eq_of_toInt {w : Word} {n : Int} (h : w.toInt = n) : w = BitVec.ofInt 64 n := by
  rw [← h, BitVec.ofInt_toInt]

/-- A decoded opcode came from its own cell (spec/30_encoding.md R57). -/
theorem cell_of_decodeOpcode {w : Word} {o : Opcode} (h : decodeOpcode w = some o) : w = o.cell := by
  unfold decodeOpcode at h
  split at h
  · next h1 => cases h; exact word_eq_of_toInt h1
  · split at h
    · next h2 => cases h; exact word_eq_of_toInt h2
    · split at h
      · next h3 => cases h; exact word_eq_of_toInt h3
      · cases h

theorem decodeOpcode_cell (o : Opcode) : decodeOpcode o.cell = some o := by
  cases o <;> decide

/-- Everything the reading of format A's operands can do. -/
theorem decodeFormatA_cases (mk : Word → Word → Word → Instr) (cs : List Word) :
    (∃ a b d rest, cs = a :: b :: d :: rest ∧ decodeFormatA mk cs = .instr (mk a b d) rest) ∨
      (cs.length < 3 ∧ decodeFormatA mk cs = .missing (1 + cs.length)) := by
  match cs with
  | a :: b :: d :: rest => exact .inl ⟨a, b, d, rest, rfl, rfl⟩
  | [] => exact .inr ⟨by decide, rfl⟩
  | [_] => exact .inr ⟨by simp, rfl⟩
  | [_, _] => exact .inr ⟨by simp, rfl⟩

end Sys2Proof
end

