-- ==== Sys2Proof/Laws/State.lean ====
section
/-! SUPPORT. What each field reads after each field's write, so that no proof unfolds a record update. -/

namespace Sys2Proof.Machine

@[simp] theorem setPc_pc (s : State) (p : Nat) : (s.setPc p).pc = p := rfl
@[simp] theorem setPc_mem (s : State) (p : Nat) : (s.setPc p).mem = s.mem := rfl
@[simp] theorem setPc_state (s : State) (p : Nat) : (s.setPc p).state = s.state := rfl
@[simp] theorem setPc_fault (s : State) (p : Nat) : (s.setPc p).fault = s.fault := rfl

@[simp] theorem setMem_pc (s : State) (m : Memory) : (s.setMem m).pc = s.pc := rfl
@[simp] theorem setMem_mem (s : State) (m : Memory) : (s.setMem m).mem = m := rfl
@[simp] theorem setMem_state (s : State) (m : Memory) : (s.setMem m).state = s.state := rfl
@[simp] theorem setMem_fault (s : State) (m : Memory) : (s.setMem m).fault = s.fault := rfl

@[simp] theorem setState_pc (s : State) (e : ExecState) : (s.setState e).pc = s.pc := rfl
@[simp] theorem setState_mem (s : State) (e : ExecState) : (s.setState e).mem = s.mem := rfl
@[simp] theorem setState_state (s : State) (e : ExecState) : (s.setState e).state = e := rfl
@[simp] theorem setState_fault (s : State) (e : ExecState) : (s.setState e).fault = s.fault := rfl

@[simp] theorem setFault_pc (s : State) (f : Option Fault) : (s.setFault f).pc = s.pc := rfl
@[simp] theorem setFault_mem (s : State) (f : Option Fault) : (s.setFault f).mem = s.mem := rfl
@[simp] theorem setFault_state (s : State) (f : Option Fault) : (s.setFault f).state = s.state := rfl
@[simp] theorem setFault_fault (s : State) (f : Option Fault) : (s.setFault f).fault = f := rfl

@[simp] theorem raise_pc (s : State) (f : Fault) : (raise s f).pc = s.pc := rfl
@[simp] theorem raise_mem (s : State) (f : Fault) : (raise s f).mem = s.mem := rfl
@[simp] theorem raise_state (s : State) (f : Fault) : (raise s f).state = s.state := rfl
@[simp] theorem raise_fault (s : State) (f : Fault) : (raise s f).fault = some f := rfl

@[simp] theorem skipIllegal_pc (s : State) : (skipIllegal s).pc = s.pc + 1 := rfl
@[simp] theorem skipIllegal_mem (s : State) : (skipIllegal s).mem = s.mem := rfl
@[simp] theorem skipIllegal_state (s : State) : (skipIllegal s).state = s.state := rfl
@[simp] theorem skipIllegal_fault (s : State) : (skipIllegal s).fault = s.fault := rfl

/-- The length and the cells of a state depend on its memory alone. -/
theorem len_congr {s t : State} (h : t.mem = s.mem) : t.len = s.len := by
  simp [State.len, h]

theorem cell?_congr {s t : State} (h : t.mem = s.mem) (a : Int) : t.cell? a = s.cell? a := by
  simp [State.cell?, h]

end Sys2Proof.Machine
end

