-- ==== Sys2Proof/Machine/Commands.lean ====
section
/-! DEFINITION. The host's commands LOAD, READ, WRITE, STATUS, STEP and RUN (spec/20_memory.md R42 to R49,
spec/40_fetch_decode_execute.md R68, R74, spec/70_reset_and_hazards.md R117), with what each gives back, and the spec's
numeric codes (spec/10_state.md R22, spec/60_exceptions.md R98). -/

namespace Sys2Proof.Machine

/-- What a STEP or a RUN returns: exactly one of these (spec/00_scope.md R10); `fatal` carries `OutOfRange` or `Overflow`. -/
inductive StepOutcome where
  | ok
  | illegalOpcode (v : Word)
  | fatal (f : Fault)
deriving DecidableEq, Repr

/-- The host's commands on an instance (R117). Constructing one is `State.reset` (R108). -/
inductive Command where
  | load (p : List Word)
  | read (i : Int)
  | write (i : Int) (v : Word)
  | status
  | step
  | run
deriving DecidableEq, Repr

/-- What the host gets back (R117). -/
inductive Response where
  | nothing
  | cell (v : Word)
  | status (pc : Nat) (state : ExecState) (fault : Option Fault) (len : Nat)
  | outcome (o : StepOutcome)
deriving DecidableEq, Repr

/-- The bit that exposes the execution state: 0 = Active, 1 = Halted (R22). -/
def ExecState.bit : ExecState → BitVec 1
  | .active => 0
  | .halted => 1

/-- Kind codes (R98). -/
def AccessKind.code : AccessKind → Nat
  | .fetch => 0
  | .read => 1
  | .write => 2

/-- The `op` of `Overflow` as a number, the opcode (R95, R98). -/
def AluOp.code : AluOp → Nat
  | .add => 1
  | .mul => 2

/-- Outcome codes (R98). -/
def StepOutcome.code : StepOutcome → Nat
  | .ok => 0
  | .illegalOpcode _ => 1
  | .fatal (.outOfRange _ _) => 2
  | .fatal (.overflow _ _ _) => 3

/-- The illegal opcode value the next STEP will report, if it is to report one (R93). -/
def illegalAhead (s : State) : Option Word :=
  match s.state, fetch s with
  | .active, .ok (.illegal v) => some v
  | _, _ => none

/-- What a STEP from `s` that left `t` reports: the fault it recorded, the illegal opcode it fetched, or success
(R68, R93, R96). -/
def reported (s t : State) : StepOutcome :=
  match t.fault with
  | some f => .fatal f
  | none =>
    match illegalAhead s with
    | some v => .illegalOpcode v
    | none => .ok

/-- STEP with its outcome (R68). -/
def stepCommand (s : State) : Except Refusal (StepOutcome × State) :=
  match step s with
  | .next t => .ok (reported s t, t)
  | .fault f => .ok (.fatal f, s)
  | .refused r => .error r

/-- The loop of RUN, for at most the given number of STEPs: it ends at a failure or once Halted (R74). -/
def runLoop : Nat → State → Except Refusal (StepOutcome × State)
  | 0, _ => .error .runBoundPassed
  | n + 1, s =>
    match stepCommand s with
    | .error r => .error r
    | .ok (.ok, t) =>
      match t.state with
      | .halted => .ok (.ok, t)
      | .active => runLoop n t
    | .ok (.illegalOpcode v, t) => .ok (.illegalOpcode v, t)
    | .ok (.fatal f, t) => .ok (.fatal f, t)

/-- The most STEPs a RUN makes: `floor((len - pc) / 4) + 1` (R75). -/
def runBound (s : State) : Nat := (s.len - s.pc) / 4 + 1

/-- RUN with its outcome (R74); the bound of R75 makes it a total function and cuts no run short. -/
def runCommand (s : State) : Except Refusal (StepOutcome × State) := runLoop (runBound s) s

/-- LOAD's effect on the memory (R42): growth to `max(len, n)` with zeros, then the prefix overwritten. -/
def loadCells (m : Memory) (p : List Word) : Memory := p ++ (grow m p.length).drop p.length

/-- LOAD, READ and WRITE are refused after a fatal fault (R96). -/
def unlessFaulted (s : State) (c : Except Refusal (Response × State)) : Except Refusal (Response × State) :=
  match s.fault with
  | some f => .error (.afterFatalFault f)
  | none => c

/-- LOAD(p) (R42, R43, R44). -/
def loadCommand (p : List Word) (s : State) : Except Refusal (Response × State) :=
  unlessFaulted s
    (if max s.len p.length ≤ Config.maxLen then .ok (.nothing, s.setMem (loadCells s.mem p))
    else .error (.loadTooLong (max s.len p.length)))

/-- READ(i) (R45, R47). -/
def readCommand (i : Int) (s : State) : Except Refusal (Response × State) :=
  unlessFaulted s
    (match s.cell? i with
    | some v => .ok (.cell v, s)
    | none => .error (.indexOutOfRange i))

/-- WRITE(i, v) (R46, R47). -/
def writeCommand (i : Int) (v : Word) (s : State) : Except Refusal (Response × State) :=
  unlessFaulted s
    (if s.validAddr i then .ok (.nothing, s.setMem (s.mem.set i.toNat v))
    else .error (.indexOutOfRange i))

/-- STATUS (R48): it always answers, and changes nothing. -/
def statusCommand (s : State) : Except Refusal (Response × State) :=
  .ok (.status s.pc s.state s.fault s.len, s)

/-- An outcome as the host gets it back. -/
def asResponse (r : Except Refusal (StepOutcome × State)) : Except Refusal (Response × State) :=
  match r with
  | .ok (o, t) => .ok (.outcome o, t)
  | .error e => .error e

/-- One host command: its response and the instance after it, or the refusal of a command that breaks the host's duty,
which leaves the instance as it was (R49, R117). -/
def command (c : Command) (s : State) : Except Refusal (Response × State) :=
  match c with
  | .load p => loadCommand p s
  | .read i => readCommand i s
  | .write i v => writeCommand i v s
  | .status => statusCommand s
  | .step => asResponse (stepCommand s)
  | .run => asResponse (runCommand s)

end Sys2Proof.Machine
end

