-- ==== Sys2Proof/Laws/Ops.lean ====
section
/-! SUPPORT. One lemma per shared operation that says what it can do, read after write, and that every memory
operation keeps the memory within MAX_LEN. -/

namespace Sys2Proof.Machine

/-- A cell exists exactly at the valid addresses (spec/20_memory.md R32). -/
theorem cell?_isSome_iff (s : State) (a : Int) : (s.cell? a).isSome ↔ s.validAddr a := by
  unfold State.cell? State.validAddr State.len
  split
  · simp; omega
  · simp; omega

theorem cell?_eq_none_iff (s : State) (a : Int) : s.cell? a = none ↔ ¬ s.validAddr a := by
  rw [← cell?_isSome_iff]; simp

theorem validAddr_of_cell? {s : State} {a : Int} {w : Word} (h : s.cell? a = some w) : s.validAddr a :=
  (cell?_isSome_iff s a).1 (by simp [h])

theorem exists_cell?_of_validAddr {s : State} {a : Int} (h : s.validAddr a) : ∃ w, s.cell? a = some w :=
  Option.isSome_iff_exists.1 ((cell?_isSome_iff s a).2 h)

theorem cell?_natCast (s : State) (n : Nat) : s.cell? (n : Int) = s.mem[n]? := by
  simp [State.cell?]

/-- Everything a read can do. -/
theorem memRead_cases (s : State) (kind : AccessKind) (a : Int) :
    (∃ w, s.cell? a = some w ∧ memRead s kind a = .ok w) ∨
      (s.cell? a = none ∧ memRead s kind a = .error (.outOfRange kind a)) := by
  unfold memRead
  cases h : s.cell? a <;> simp

theorem memRead_of_cell? {s : State} {a : Int} {w : Word} (kind : AccessKind) (h : s.cell? a = some w) :
    memRead s kind a = .ok w := by simp [memRead, h]

theorem memRead_of_none {s : State} {a : Int} (kind : AccessKind) (h : s.cell? a = none) :
    memRead s kind a = .error (.outOfRange kind a) := by simp [memRead, h]

/-- Everything a write can do. -/
theorem memWrite_cases (s : State) (a : Int) (v : Word) :
    (s.validAddr a ∧ memWrite s a v = .ok (s.setMem (s.mem.set a.toNat v))) ∨
      (¬ s.validAddr a ∧ memWrite s a v = .error (.outOfRange .write a)) := by
  by_cases h : s.validAddr a
  · exact .inl ⟨h, if_pos h⟩
  · exact .inr ⟨h, if_neg h⟩

/-- Read after write, at the same address and at every other one. -/
theorem cell?_memWrite {s t : State} {a : Int} {v : Word} (h : memWrite s a v = .ok t) (x : Int) :
    t.cell? x = if x = a then some v else s.cell? x := by
  rcases memWrite_cases s a v with ⟨hv, hw⟩ | ⟨-, hw⟩
  · have ht : t = s.setMem (s.mem.set a.toNat v) := by simpa [hw] using h.symm
    subst ht
    obtain ⟨h0, hl⟩ := hv
    unfold State.len at hl
    by_cases hxa : x = a
    · subst hxa
      have hlt : x.toNat < s.mem.length := by omega
      simp [State.cell?, h0, hlt]
    · by_cases hx : 0 ≤ x
      · have : a.toNat ≠ x.toNat := by omega
        simp [State.cell?, hx, hxa, this]
      · simp [State.cell?, hx, hxa]
  · simp [hw] at h

/-- A write changes memory alone, and not its length. -/
theorem memWrite_frame {s t : State} {a : Int} {v : Word} (h : memWrite s a v = .ok t) :
    t.pc = s.pc ∧ t.state = s.state ∧ t.fault = s.fault ∧ t.len = s.len := by
  rcases memWrite_cases s a v with ⟨-, hw⟩ | ⟨-, hw⟩
  · have ht : t = s.setMem (s.mem.set a.toNat v) := by simpa [hw] using h.symm
    subst ht
    simp [State.len]
  · simp [hw] at h

/-- An instruction always ends in a next state. -/
theorem finish_cases (s : State) (e : Except Fault State) :
    (∃ t, e = .ok t ∧ finish s e = .next t) ∨ (∃ f, e = .error f ∧ finish s e = .next (raise s f)) := by
  cases e <;> simp [finish]

/-! The form of memory: no more than MAX_LEN cells. -/

theorem memWrite_keeps_wf {s t : State} {a : Int} {v : Word} (h : memWrite s a v = .ok t)
    (hm : Memory.wf s.mem) : Memory.wf t.mem := by
  have := (memWrite_frame h).2.2.2
  unfold State.len at this
  simpa [Memory.wf, this] using hm

theorem set_keeps_wf {m : Memory} (n : Nat) (v : Word) (hm : Memory.wf m) : Memory.wf (m.set n v) := by
  simpa [Memory.wf] using hm

theorem grow_length (m : Memory) (n : Nat) : (grow m n).length = max m.length n := by
  simp [grow]; omega

theorem loadCells_length (m : Memory) (p : List Word) : (loadCells m p).length = max m.length p.length := by
  simp [loadCells, grow_length]

theorem loadCells_keeps_wf {m : Memory} {p : List Word} (h : max m.length p.length ≤ Config.maxLen) :
    Memory.wf (loadCells m p) := by
  simpa [Memory.wf, loadCells_length] using h

theorem placeCells_length (m : Memory) (p : Nat) (cs : List Word) :
    (placeCells m p cs).length = max m.length (p + cs.length) := by
  simp [placeCells, grow_length]; omega

theorem placeCells_keeps_wf {m : Memory} {p : Nat} {cs : List Word} (hm : Memory.wf m)
    (h : p + cs.length ≤ Config.maxLen) : Memory.wf (placeCells m p cs) := by
  simp only [Memory.wf] at *
  rw [placeCells_length]; omega

theorem reset_wf : Memory.wf State.reset.mem := Nat.zero_le _

/-- Equal memories are equal data: same length, same cell at every address. -/
theorem mem_ext_cell? {s t : State} (h : ∀ a : Int, s.cell? a = t.cell? a) : s.mem = t.mem := by
  apply List.ext_getElem?
  intro n
  simpa [cell?_natCast] using h n

end Sys2Proof.Machine
end

