-- ==== Sys2Proof/Laws/Exec.lean ====
section
/-! SUPPORT. What the ALU, the shared effect of add and multiply, and the fetch phase can do. -/

namespace Sys2Proof.Machine

/-- A result that fits is a `Word` of exactly that value (spec/41_arithmetic.md R79). -/
theorem toInt_ofInt_of_fits {v : Int} (h : fits v) : (BitVec.ofInt 64 v).toInt = v := by
  simp only [fits, Word.minInt, Word.maxInt] at h
  rw [BitVec.toInt_ofInt]
  unfold Int.bmod
  norm_num
  omega

/-- The value of a `Word` fits. -/
theorem fits_toInt (w : Word) : fits w.toInt := by
  have h1 := BitVec.toInt_lt (x := w)
  have h2 := BitVec.le_toInt (x := w)
  simp only [fits, Word.minInt, Word.maxInt]
  norm_num at h1 h2
  omega

theorem alu_cases (op : AluOp) (va vb : Word) :
    (fits (aluExact op va vb) ∧ alu op va vb = .ok (BitVec.ofInt 64 (aluExact op va vb))) ∨
      (¬ fits (aluExact op va vb) ∧ alu op va vb = .error (.overflow op va vb)) := by
  by_cases h : fits (aluExact op va vb)
  · exact .inl ⟨h, if_pos h⟩
  · exact .inr ⟨h, if_neg h⟩

/-- Everything the shared effect of add and multiply can do, in the order of the checks (spec/60_exceptions.md R97). -/
theorem arithmetic_cases (op : AluOp) (a b d : Word) (s : State) :
    (s.cell? (operandAddr a) = none ∧
        arithmetic op a b d s = .error (.outOfRange .read (operandAddr a))) ∨
    (∃ va, s.cell? (operandAddr a) = some va ∧ s.cell? (operandAddr b) = none ∧
        arithmetic op a b d s = .error (.outOfRange .read (operandAddr b))) ∨
    (∃ va vb, s.cell? (operandAddr a) = some va ∧ s.cell? (operandAddr b) = some vb ∧
        ¬ fits (aluExact op va vb) ∧ arithmetic op a b d s = .error (.overflow op va vb)) ∨
    (∃ va vb, s.cell? (operandAddr a) = some va ∧ s.cell? (operandAddr b) = some vb ∧
        fits (aluExact op va vb) ∧ ¬ s.validAddr (operandAddr d) ∧
        arithmetic op a b d s = .error (.outOfRange .write (operandAddr d))) ∨
    (∃ va vb t, s.cell? (operandAddr a) = some va ∧ s.cell? (operandAddr b) = some vb ∧
        fits (aluExact op va vb) ∧
        memWrite s (operandAddr d) (BitVec.ofInt 64 (aluExact op va vb)) = .ok t ∧
        arithmetic op a b d s = .ok (t.setPc (s.pc + 4))) := by
  unfold arithmetic readSource writeDest
  rcases memRead_cases s .read (operandAddr a) with ⟨va, ha, ra⟩ | ⟨ha, ra⟩
  · rcases memRead_cases s .read (operandAddr b) with ⟨vb, hb, rb⟩ | ⟨hb, rb⟩
    · rcases alu_cases op va vb with ⟨hf, hr⟩ | ⟨hf, hr⟩
      · rcases memWrite_cases s (operandAddr d) (BitVec.ofInt 64 (aluExact op va vb)) with ⟨hv, hw⟩ | ⟨hv, hw⟩
        · refine .inr (.inr (.inr (.inr ⟨va, vb, _, ha, hb, hf, hw, ?_⟩)))
          rw [ra, rb]; simp only [bind, Except.bind, hr, hw, pure, Except.pure]
        · refine .inr (.inr (.inr (.inl ⟨va, vb, ha, hb, hf, hv, ?_⟩)))
          rw [ra, rb]; simp only [bind, Except.bind, hr, hw]
      · refine .inr (.inr (.inl ⟨va, vb, ha, hb, hf, ?_⟩))
        rw [ra, rb]; simp only [bind, Except.bind, hr]
    · refine .inr (.inl ⟨va, ha, hb, ?_⟩)
      rw [ra, rb]; rfl
  · refine .inl ⟨ha, ?_⟩
    rw [ra]; rfl

/-- Everything the operand fetches of format A can do (spec/40_fetch_decode_execute.md R67). -/
theorem fetchFormatA_cases (mk : Word → Word → Word → Instr) (s : State) :
    (∃ a b d, s.cell? ((s.pc + 1 : Nat) : Int) = some a ∧ s.cell? ((s.pc + 2 : Nat) : Int) = some b ∧
        s.cell? ((s.pc + 3 : Nat) : Int) = some d ∧ fetchFormatA mk s = .ok (.instr (mk a b d))) ∨
    (∃ k : Nat, 1 ≤ k ∧ k ≤ 3 ∧ s.cell? ((s.pc + k : Nat) : Int) = none ∧
        (∀ j, 1 ≤ j → j < k → (s.cell? ((s.pc + j : Nat) : Int)).isSome) ∧
        fetchFormatA mk s = .error (.outOfRange .fetch ((s.pc + k : Nat) : Int))) := by
  unfold fetchFormatA
  rcases memRead_cases s .fetch ((s.pc + 1 : Nat) : Int) with ⟨a, ha, ra⟩ | ⟨ha, ra⟩
  · rcases memRead_cases s .fetch ((s.pc + 2 : Nat) : Int) with ⟨b, hb, rb⟩ | ⟨hb, rb⟩
    · rcases memRead_cases s .fetch ((s.pc + 3 : Nat) : Int) with ⟨d, hd, rd⟩ | ⟨hd, rd⟩
      · refine .inl ⟨a, b, d, ha, hb, hd, ?_⟩
        rw [ra, rb, rd]; rfl
      · refine .inr ⟨3, by decide, by decide, hd, ?_, ?_⟩
        · intro j h1 h3
          obtain rfl | rfl : j = 1 ∨ j = 2 := by omega
          · rw [ha]; rfl
          · rw [hb]; rfl
        · rw [ra, rb, rd]; rfl
    · refine .inr ⟨2, by decide, by decide, hb, ?_, ?_⟩
      · intro j h1 h2
        obtain rfl : j = 1 := by omega
        rw [ha]; rfl
      · rw [ra, rb]; rfl
  · refine .inr ⟨1, by decide, by decide, ha, fun j h1 h2 => by omega, ?_⟩
    rw [ra]; rfl

/-- Everything the fetch phase can do, by the opcode cell (spec/40_fetch_decode_execute.md R68). -/
theorem fetch_cases (s : State) :
    (s.cell? s.pc = none ∧ fetch s = .error (.outOfRange .fetch s.pc)) ∨
    (∃ op, s.cell? s.pc = some op ∧ decodeOpcode op = none ∧ fetch s = .ok (.illegal op)) ∨
    (∃ op, s.cell? s.pc = some op ∧ decodeOpcode op = some .halt ∧ fetch s = .ok (.instr .halt)) ∨
    (∃ op, s.cell? s.pc = some op ∧ decodeOpcode op = some .add ∧ fetch s = fetchFormatA .add s) ∨
    (∃ op, s.cell? s.pc = some op ∧ decodeOpcode op = some .mul ∧ fetch s = fetchFormatA .mul s) := by
  unfold fetch
  rcases memRead_cases s .fetch s.pc with ⟨op, ho, ro⟩ | ⟨ho, ro⟩
  · rw [ro]
    rcases hd : decodeOpcode op with _ | _ | _ | _
    · exact .inr (.inl ⟨op, ho, hd, by simp only [bind, Except.bind, hd]; rfl⟩)
    · exact .inr (.inr (.inr (.inl ⟨op, ho, hd, by simp only [bind, Except.bind, hd]⟩)))
    · exact .inr (.inr (.inr (.inr ⟨op, ho, hd, by simp only [bind, Except.bind, hd]⟩)))
    · exact .inr (.inr (.inl ⟨op, ho, hd, by simp only [bind, Except.bind, hd]; rfl⟩))
  · exact .inl ⟨ho, by rw [ro]; rfl⟩

end Sys2Proof.Machine
end

