-- ==== Sys2Proof/Safety.lean ====
section
/-! DEFINITION. What counts as a safe run, in the terms the statements use: a good end, a running instance, and the
invariants of the machine (spec/10_state.md R18, spec/60_exceptions.md R94 to R97). -/

namespace Sys2Proof.Machine

/-- The instance takes the next STEP as an instruction: Active, with the fault latch clear (R68). -/
abbrev State.running (s : State) : Prop := s.state = .active ∧ s.fault = none

/-- A successful end: Halted with the latch clear. A state with `fault` set never is one (R96). -/
abbrev State.goodEnd (s : State) : Prop := s.state = .halted ∧ s.fault = none

/-- `0 <= pc <= len` (R18). -/
abbrev State.pcInRange (s : State) : Prop := s.pc ≤ s.len

/-- A recorded fault is true of the state it was recorded in, which never changes after it (R94, R95, R96): the address of
an `OutOfRange` is still out of range, and for a fetch it is one of the cells `p` to `p + 3`; the result of an `Overflow` is
no `Word`. -/
def Fault.justified (s : State) : Fault → Prop
  | .outOfRange .fetch a => (s.len : Int) ≤ a ∧ (s.pc : Int) ≤ a ∧ a ≤ (s.pc : Int) + 3
  | .outOfRange .read a => ¬ s.validAddr a
  | .outOfRange .write a => ¬ s.validAddr a
  | .overflow op va vb => ¬ fits (aluExact op va vb)

/-- The latch holds nothing, or a justified fault of an instance that is still Active: "A Halted instance never faults"
(R97). -/
def State.latchHonest (s : State) : Prop :=
  ∀ f, s.fault = some f → s.state = .active ∧ f.justified s

/-- The invariant of the machine: `pc` in range and an honest latch. -/
def State.Inv (s : State) : Prop := s.pcInRange ∧ s.latchHonest

end Sys2Proof.Machine
end

