-- ==== Sys2Proof/Certificates/Slice0/Obligations.lean ====
section
/-! DEFINITION. The statements for the provers: def Obligations.<Name> : Prop, each naming the rules of spec/ it
formalises, and the spec's own STEP written out a second time from its pseudocode, to hold the machine against. -/

open Sys2Proof Sys2Proof.Machine

/-! ## The spec's pseudocode, written out on its own -/

/-- `0 <= addr < len` and the cell there (spec/00_scope.md R9). -/
def Sys2Proof.Spec.cellAt (s : State) (addr : Int) : Option Word :=
  if 0 ≤ addr ∧ addr < (s.mem.length : Int) then s.mem[addr.toNat]? else none

/-- `raise E`: nothing of the step is committed, `fault` is set (spec/60_exceptions.md R96). -/
def Sys2Proof.Spec.fatal (s : State) (f : Fault) : StepOutcome × State := (.fatal f, { s with fault := some f })

/-- Lines (2) to (8) of the STEP of spec/40_fetch_decode_execute.md R68, for opcode 1 or 2. -/
def Sys2Proof.Spec.arithmeticLines (s : State) (op : Word) : StepOutcome × State :=
  let p := s.pc
  let which : AluOp := if op.toInt = 1 then .add else .mul
  match Spec.cellAt s (p + 1), Spec.cellAt s (p + 2), Spec.cellAt s (p + 3) with
  | none, _, _ => Spec.fatal s (.outOfRange .fetch (p + 1))
  | some _, none, _ => Spec.fatal s (.outOfRange .fetch (p + 2))
  | some _, some _, none => Spec.fatal s (.outOfRange .fetch (p + 3))
  | some a, some b, some d =>
    match Spec.cellAt s a.toInt, Spec.cellAt s b.toInt with
    | none, _ => Spec.fatal s (.outOfRange .read a.toInt)
    | some _, none => Spec.fatal s (.outOfRange .read b.toInt)
    | some va, some vb =>
      let r : Int := if op.toInt = 1 then va.toInt + vb.toInt else va.toInt * vb.toInt
      if ¬ (-(2 : Int) ^ 63 ≤ r ∧ r ≤ (2 : Int) ^ 63 - 1) then Spec.fatal s (.overflow which va vb)
      else if ¬ (0 ≤ d.toInt ∧ d.toInt < (s.mem.length : Int)) then Spec.fatal s (.outOfRange .write d.toInt)
      else (.ok, { s with mem := s.mem.set d.toInt.toNat (BitVec.ofInt 64 r), pc := p + 4 })

/-- The complete STEP of spec/40_fetch_decode_execute.md R68, line by line. -/
def Sys2Proof.Spec.step (s : State) : StepOutcome × State :=
  match s.fault with
  | some f => (.fatal f, s)
  | none =>
    if s.state = .halted then (.ok, s)
    else
      match Spec.cellAt s s.pc with
      | none => Spec.fatal s (.outOfRange .fetch s.pc)
      | some op =>
        if op.toInt = 99 then (.ok, { s with pc := s.pc + 1, state := .halted })
        else if op.toInt = 1 ∨ op.toInt = 2 then Spec.arithmeticLines s op
        else (.illegalOpcode op, { s with pc := s.pc + 1 })

/-! ## Reset -/

/-- R108: the state of a newly constructed instance. -/
def Obligations.ResetIsANewInstance : Prop :=
  State.reset.pc = 0 ∧ State.reset.len = 0 ∧ State.reset.mem = [] ∧ State.reset.state = .active ∧
    State.reset.fault = none

/-- The invariant of the machine holds at reset, and the memory is within MAX_LEN (R18, R26). -/
def Obligations.ResetMeetsTheInvariant : Prop :=
  State.reset.Inv ∧ Memory.wf State.reset.mem

/-! ## Decoding -/

/-- R70: the four cases of the decoder, each exactly where the opcode cell has its value; decoding reads only the
opcode cell, so halt and an illegal opcode never look at the cells after it, even where there are none. -/
def Obligations.DecoderHasFourCases : Prop :=
  (∀ w : Word, (decodeOpcode w = some .add ↔ w.toInt = 1) ∧ (decodeOpcode w = some .mul ↔ w.toInt = 2) ∧
    (decodeOpcode w = some .halt ↔ w.toInt = 99) ∧
    (decodeOpcode w = none ↔ w.toInt ≠ 1 ∧ w.toInt ≠ 2 ∧ w.toInt ≠ 99)) ∧
  (∀ (s : State) (w : Word), s.cell? s.pc = some w →
    (w.toInt = 99 → fetch s = .ok (.instr .halt)) ∧
    (w.toInt ≠ 1 → w.toInt ≠ 2 → w.toInt ≠ 99 → fetch s = .ok (.illegal w)))

/-- R62: the test `c & mask == match` over the rows of opcode_table.json selects exactly what the decoder does. -/
def Obligations.MaskAndMatchIsTheDecoder : Prop :=
  ∀ c : Word, tableDecode c = decodeOpcode c

/-- R61: the length comes from the opcode cell alone: 4 for opcode 1 or 2, 1 for opcode 99, and with that many cells at
hand an instruction is read and the rest handed back, with fewer the first missing cell is named; an illegal opcode has
no length, whatever follows it. -/
def Obligations.LengthComesFromTheOpcode : Prop :=
  ∀ (w : Word) (rest : List Word),
    (w.toInt = 1 ∨ w.toInt = 2 →
      (3 ≤ rest.length → ∃ i, decode (w :: rest) = .instr i (rest.drop 3) ∧ i.opcode.length = 4) ∧
      (rest.length < 3 → decode (w :: rest) = .missing (rest.length + 1))) ∧
    (w.toInt = 99 → decode (w :: rest) = .instr .halt rest ∧ Instr.halt.opcode.length = 1) ∧
    (w.toInt ≠ 1 → w.toInt ≠ 2 → w.toInt ≠ 99 → decode (w :: rest) = .illegal w)

/-- Decode and encode agree, both ways: a run of cells decodes to `i` with `rest` left over exactly when it is the
encoding of `i` followed by `rest` (R55, R56, R57, R60). -/
def Obligations.DecodeAndEncodeAgree : Prop :=
  ∀ (i : Instr) (cells rest : List Word), i.wf = true →
    (decode cells = .instr i rest ↔ cells = encode i ++ rest)

/-- The well-formed runs of cells are exactly the encodings of instructions (R55, R56, R57, R60). -/
def Obligations.WellFormedCellsAreTheEncodings : Prop :=
  ∀ cells : List Word, cellsWf cells = true ↔ ∃ i : Instr, i.wf = true ∧ encode i = cells

/-- A few words written out from the spec's encodings decode to what they stand for (R57, R64; L1-1, L1-2, L1-4,
L1-7, L2-A). -/
def Obligations.WordsOfTheSpecDecode : Prop :=
  decode [0x0000000000000001#64, 5#64, 6#64, 0#64] = .instr (.add 5 6 0) [] ∧
  decode [0x0000000000000002#64, 3#64, 0#64, 3#64] = .instr (.mul 3 0 3) [] ∧
  decode [0x0000000000000063#64] = .instr .halt [] ∧
  decode [5#64, 99#64] = .illegal 5 ∧
  decode [0xFFFFFFFFFFFFFFFF#64, 99#64] = .illegal (-1) ∧
  decode [1002#64, 4#64, 3#64, 4#64] = .illegal 1002

/-! ## Fetch and step -/

/-- The fetch phase reads the cells from `pc` on as the decoder reads a run of cells, and where the run ends too early it
faults with the address of the first missing cell, in every state (R33, R67, R94). -/
def Obligations.FetchAgreesWithTheDecoder : Prop :=
  ∀ s : State, fetch s =
    match decode (s.mem.drop s.pc) with
    | .instr i _ => .ok (.instr i)
    | .illegal v => .ok (.illegal v)
    | .missing k => .error (.outOfRange .fetch ((s.pc + k : Nat) : Int))

/-- A running instance whose cells at `pc` decode to a well-formed instruction runs exactly that instruction. -/
def Obligations.StepRunsTheDecodedInstruction : Prop :=
  ∀ (s : State) (i : Instr) (rest : List Word), s.running → i.wf = true →
    decode (s.mem.drop s.pc) = .instr i rest → step s = exec i s

/-- R68: STEP, its outcome and the state after it are those of the spec's pseudocode, in every state. -/
def Obligations.StepIsTheStepOfTheSpec : Prop :=
  ∀ s : State, stepCommand s = .ok (Spec.step s)

/-- R66: a STEP on a Halted instance does nothing and succeeds, whatever `pc` and `len` are (the latch is clear: R97 has a
Halted instance never fault). -/
def Obligations.HaltedStepDoesNothing : Prop :=
  ∀ s : State, s.goodEnd → step s = .next s ∧ stepCommand s = .ok (.ok, s)

/-- R69, row by row: `pc`, `state`, `mem` and the latch after each outcome of a step that begins Active. -/
def Obligations.StateAfterEachOutcome : Prop :=
  ∀ (s t : State) (o : StepOutcome), s.running → stepCommand s = .ok (o, t) →
    (∀ a b d, (fetch s = .ok (.instr (.add a b d)) ∨ fetch s = .ok (.instr (.mul a b d))) → o = .ok →
      t.pc = s.pc + 4 ∧ t.state = .active ∧ t.fault = none ∧ t.len = s.len ∧
        ∀ x : Int, x ≠ d.toInt → t.cell? x = s.cell? x) ∧
    (fetch s = .ok (.instr .halt) →
      o = .ok ∧ t.pc = s.pc + 1 ∧ t.state = .halted ∧ t.mem = s.mem ∧ t.fault = none) ∧
    (∀ v, o = .illegalOpcode v → t.pc = s.pc + 1 ∧ t.state = .active ∧ t.mem = s.mem ∧ t.fault = none) ∧
    (∀ f, o = .fatal f → t.pc = s.pc ∧ t.state = .active ∧ t.mem = s.mem ∧ t.fault = some f)

/-- R59, R71, R93: every opcode value but 1, 2 and 99 is illegal; the STEP that fetches one, and a RUN through its STEP,
report the value; `pc` has moved past that one cell, and nothing else has changed, so the instance is still running. -/
def Obligations.IllegalOpcodeIsReportedAndSkipped : Prop :=
  ∀ (s : State) (v : Word), s.running → s.cell? s.pc = some v →
    v.toInt ≠ 1 → v.toInt ≠ 2 → v.toInt ≠ 99 →
    ∃ t, step s = .next t ∧ stepCommand s = .ok (.illegalOpcode v, t) ∧ runCommand s = .ok (.illegalOpcode v, t) ∧
      t.pc = s.pc + 1 ∧ t.mem = s.mem ∧ t.state = .active ∧ t.fault = none

/-- An opcode fetch outside memory raises `OutOfRange(Fetch, pc)`: the latch is set and nothing else changes (R33, R94, R96). -/
def Obligations.OpcodeFetchOutsideMemoryFaults : Prop :=
  ∀ s : State, s.running → s.len ≤ s.pc →
    ∃ t, step s = .next t ∧ stepCommand s = .ok (.fatal (.outOfRange .fetch s.pc), t) ∧
      t.fault = some (.outOfRange .fetch s.pc) ∧ t.pc = s.pc ∧ t.mem = s.mem ∧ t.state = s.state

/-! ## add and mul -/

/-- add completes: with both sources readable, the sum a `Word` and `dest` in range, exec answers a next state in which
`dest` holds the exact sum of the values before, `pc` has moved by 4, and nothing else has changed (R80; no operand is
taken to differ from another, R73). -/
def Obligations.AddWritesTheExactSum : Prop :=
  ∀ (s : State) (a b d va vb : Word), s.cell? a.toInt = some va → s.cell? b.toInt = some vb →
    fits (va.toInt + vb.toInt) → s.validAddr d.toInt →
    ∃ t, exec (.add a b d) s = .next t ∧
      (∃ r, t.cell? d.toInt = some r ∧ r.toInt = va.toInt + vb.toInt) ∧
      (∀ x : Int, x ≠ d.toInt → t.cell? x = s.cell? x) ∧
      t.pc = s.pc + 4 ∧ t.len = s.len ∧ t.state = s.state ∧ t.fault = s.fault

/-- mul completes: the same, with the exact product (R81). -/
def Obligations.MulWritesTheExactProduct : Prop :=
  ∀ (s : State) (a b d va vb : Word), s.cell? a.toInt = some va → s.cell? b.toInt = some vb →
    fits (va.toInt * vb.toInt) → s.validAddr d.toInt →
    ∃ t, exec (.mul a b d) s = .next t ∧
      (∃ r, t.cell? d.toInt = some r ∧ r.toInt = va.toInt * vb.toInt) ∧
      (∀ x : Int, x ≠ d.toInt → t.cell? x = s.cell? x) ∧
      t.pc = s.pc + 4 ∧ t.len = s.len ∧ t.state = s.state ∧ t.fault = s.fault

/-- The frame of add and mul, over every state and operands: the execution state and `len` are unchanged; every cell but
`dest` reads as before; and either `pc` has moved by 4 with the latch as it was, or a fault is latched, `pc` is where it
was and every cell reads as before (R24, R69, R96). -/
def Obligations.ArithmeticChangesOnlyDest : Prop :=
  ∀ (s t : State) (a b d : Word), (exec (.add a b d) s = .next t ∨ exec (.mul a b d) s = .next t) →
    t.state = s.state ∧ t.len = s.len ∧
      (∀ x : Int, x ≠ operandAddr d → t.cell? x = s.cell? x) ∧
      ((t.pc = s.pc + 4 ∧ t.fault = s.fault) ∨
        (t.pc = s.pc ∧ (∃ f, t.fault = some f) ∧ ∀ x : Int, t.cell? x = s.cell? x))

/-- R80, as a STEP: an add that runs past the end of memory, an unreadable `src_a`, an unreadable `src_b`, a sum that is no
`Word` and a `dest` out of range each raise their fault, in that order, and an add with none of them completes. -/
def Obligations.AddStepFollowsItsRule : Prop :=
  ∀ s : State, s.running → s.cell? s.pc = some 1 →
    (s.len ≤ s.pc + 3 → step s = .next (raise s (.outOfRange .fetch s.len))) ∧
    ∀ a b d : Word, s.cell? (s.pc + 1) = some a → s.cell? (s.pc + 2) = some b → s.cell? (s.pc + 3) = some d →
      (¬ s.validAddr a.toInt → step s = .next (raise s (.outOfRange .read a.toInt))) ∧
      (s.validAddr a.toInt → ¬ s.validAddr b.toInt → step s = .next (raise s (.outOfRange .read b.toInt))) ∧
      ∀ va vb : Word, s.cell? a.toInt = some va → s.cell? b.toInt = some vb →
        (¬ fits (va.toInt + vb.toInt) → step s = .next (raise s (.overflow .add va vb))) ∧
        (fits (va.toInt + vb.toInt) → ¬ s.validAddr d.toInt →
          step s = .next (raise s (.outOfRange .write d.toInt))) ∧
        (fits (va.toInt + vb.toInt) → s.validAddr d.toInt →
          ∃ r : Word, r.toInt = va.toInt + vb.toInt ∧
            step s = .next { s with mem := s.mem.set d.toInt.toNat r, pc := s.pc + 4 })

/-- R81, as a STEP: the same for multiply, with the exact product. -/
def Obligations.MulStepFollowsItsRule : Prop :=
  ∀ s : State, s.running → s.cell? s.pc = some 2 →
    (s.len ≤ s.pc + 3 → step s = .next (raise s (.outOfRange .fetch s.len))) ∧
    ∀ a b d : Word, s.cell? (s.pc + 1) = some a → s.cell? (s.pc + 2) = some b → s.cell? (s.pc + 3) = some d →
      (¬ s.validAddr a.toInt → step s = .next (raise s (.outOfRange .read a.toInt))) ∧
      (s.validAddr a.toInt → ¬ s.validAddr b.toInt → step s = .next (raise s (.outOfRange .read b.toInt))) ∧
      ∀ va vb : Word, s.cell? a.toInt = some va → s.cell? b.toInt = some vb →
        (¬ fits (va.toInt * vb.toInt) → step s = .next (raise s (.overflow .mul va vb))) ∧
        (fits (va.toInt * vb.toInt) → ¬ s.validAddr d.toInt →
          step s = .next (raise s (.outOfRange .write d.toInt))) ∧
        (fits (va.toInt * vb.toInt) → s.validAddr d.toInt →
          ∃ r : Word, r.toInt = va.toInt * vb.toInt ∧
            step s = .next { s with mem := s.mem.set d.toInt.toNat r, pc := s.pc + 4 })

/-- R79: the ALU delivers the exact sum or product where it is a `Word` and otherwise raises Overflow; it never wraps,
saturates or truncates. -/
def Obligations.AluIsExactOrOverflows : Prop :=
  ∀ va vb : Word,
    (fits (va.toInt + vb.toInt) → ∃ r, alu .add va vb = .ok r ∧ r.toInt = va.toInt + vb.toInt) ∧
    (¬ fits (va.toInt + vb.toInt) → alu .add va vb = .error (.overflow .add va vb)) ∧
    (fits (va.toInt * vb.toInt) → ∃ r, alu .mul va vb = .ok r ∧ r.toInt = va.toInt * vb.toInt) ∧
    (¬ fits (va.toInt * vb.toInt) → alu .mul va vb = .error (.overflow .mul va vb))

/-- R83: an add or multiply that overflows writes no cell, leaves `pc`, and latches the fault with its opcode and the two
source values. -/
def Obligations.OverflowWritesNothing : Prop :=
  ∀ (s : State) (a b d va vb : Word), s.cell? a.toInt = some va → s.cell? b.toInt = some vb →
    (¬ fits (va.toInt + vb.toInt) →
      ∃ t, exec (.add a b d) s = .next t ∧ t.fault = some (.overflow .add va vb) ∧ t.pc = s.pc ∧ t.mem = s.mem ∧
        t.state = s.state) ∧
    (¬ fits (va.toInt * vb.toInt) →
      ∃ t, exec (.mul a b d) s = .next t ∧ t.fault = some (.overflow .mul va vb) ∧ t.pc = s.pc ∧ t.mem = s.mem ∧
        t.state = s.state)

/-- R82: for a sum that fits, swapping the sources writes the same value, 0 is the identity, and the result is the exact
sum. -/
def Obligations.AddLaws : Prop :=
  (∀ x y : Word, fits (x.toInt + y.toInt) →
    alu .add x y = alu .add y x ∧ ∀ r, alu .add x y = .ok r → r.toInt = x.toInt + y.toInt) ∧
  (∀ x : Word, alu .add x 0 = .ok x ∧ alu .add 0 x = .ok x) ∧
  (∀ (s : State) (a b d va vb : Word), s.cell? a.toInt = some va → s.cell? b.toInt = some vb →
    fits (va.toInt + vb.toInt) → exec (.add a b d) s = exec (.add b a d) s)

/-- R84: for a product that fits, the sign rules, the exact product, and that multiply is commutative with 1 its identity
and 0 absorbing. -/
def Obligations.MulLaws : Prop :=
  (∀ x y : Word, fits (x.toInt * y.toInt) →
    alu .mul x y = alu .mul y x ∧
    ∀ r, alu .mul x y = .ok r → r.toInt = x.toInt * y.toInt ∧
      (0 < x.toInt → 0 < y.toInt → 0 < r.toInt) ∧ (0 < x.toInt → y.toInt < 0 → r.toInt < 0) ∧
      (x.toInt < 0 → 0 < y.toInt → r.toInt < 0) ∧ (x.toInt < 0 → y.toInt < 0 → 0 < r.toInt)) ∧
  (∀ x : Word, alu .mul x 1 = .ok x ∧ alu .mul 1 x = .ok x ∧ alu .mul x 0 = .ok 0 ∧ alu .mul 0 x = .ok 0) ∧
  (∀ (s : State) (a b d va vb : Word), s.cell? a.toInt = some va → s.cell? b.toInt = some vb →
    fits (va.toInt * vb.toInt) → exec (.mul a b d) s = exec (.mul b a d) s)

/-- R52: an add or multiply that writes a cell is seen by the next step's fetch of it: with `dest` the cell the next step
fetches first, the next opcode is the value written, and a value of 99 halts. -/
def Obligations.NextFetchSeesTheWrite : Prop :=
  ∀ (s t : State) (a b d va vb : Word), s.running → s.cell? a.toInt = some va → s.cell? b.toInt = some vb →
    d.toInt = (s.pc : Int) + 4 → s.validAddr d.toInt →
    ((fits (va.toInt + vb.toInt) → exec (.add a b d) s = .next t →
        (∃ r : Word, t.cell? t.pc = some r ∧ r.toInt = va.toInt + vb.toInt) ∧
        (va.toInt + vb.toInt = 99 → ∃ u, step t = .next u ∧ u.goodEnd)) ∧
     (fits (va.toInt * vb.toInt) → exec (.mul a b d) s = .next t →
        (∃ r : Word, t.cell? t.pc = some r ∧ r.toInt = va.toInt * vb.toInt) ∧
        (va.toInt * vb.toInt = 99 → ∃ u, step t = .next u ∧ u.goodEnd)))

/-! ## halt -/

/-- R88: halt answers a next state, Halted, with `pc` one further and everything else as it was. -/
def Obligations.HaltCompletes : Prop :=
  ∀ s : State, ∃ t, exec .halt s = .next t ∧ t.state = .halted ∧ t.pc = s.pc + 1 ∧ t.mem = s.mem ∧
    t.fault = s.fault ∧ ∀ x : Int, t.cell? x = s.cell? x

/-- R88, as a STEP: only the opcode fetch can fail; a fetched 99 halts without a fault and without a look at the cells
after it, also at the last cell, where `pc` ends at `len`; the next STEP then does nothing. -/
def Obligations.HaltStepFollowsItsRule : Prop :=
  ∀ s : State, s.running →
    (s.cell? s.pc = none → step s = .next (raise s (.outOfRange .fetch s.pc))) ∧
    (s.cell? s.pc = some 99 →
      step s = .next { s with pc := s.pc + 1, state := .halted } ∧
      (s.pc + 1 = s.len → ∃ t, step s = .next t ∧ t.pc = t.len ∧ t.goodEnd) ∧
      step { s with pc := s.pc + 1, state := .halted } = .next { s with pc := s.pc + 1, state := .halted })

/-! ## Whole-machine rules -/

/-- The invariant of the machine, `pc` in range and an honest latch, is kept by every step from every state that has
it (R18, R94, R95, R96, R97). -/
def Obligations.StepKeepsTheInvariant : Prop :=
  ∀ s t : State, s.Inv → step s = .next t → t.Inv

/-- Every host command that is not refused keeps the invariant and the capacity of memory (R18, R29, R44, R96, R117). -/
def Obligations.CommandsKeepTheInvariant : Prop :=
  ∀ (c : Command) (s t : State) (r : Response), s.Inv → Memory.wf s.mem → command c s = .ok (r, t) →
    t.Inv ∧ Memory.wf t.mem

/-- No step is refused, a step stops with a fault exactly where one is recorded already, and a step that answers a next
state keeps the memory within MAX_LEN (R29, R96). -/
def Obligations.StepNeverRefuses : Prop :=
  ∀ s : State, (∀ r, step s ≠ .refused r) ∧
    (∀ f, step s = .fault f ↔ s.fault = some f) ∧
    (∀ t, step s = .next t → Memory.wf s.mem → Memory.wf t.mem)

/-- R21: no command moves Halted back to Active, and the one way into Halted is the decoding of the halt opcode by a
step. -/
def Obligations.HaltedIsAbsorbing : Prop :=
  (∀ (c : Command) (s t : State) (r : Response), command c s = .ok (r, t) → s.state = .halted → t.state = .halted) ∧
  (∀ s t : State, step s = .next t → s.state = .active → (t.state = .halted ↔ fetch s = .ok (.instr .halt))) ∧
  (∀ (s t : State) (r : Response) (c : Command), command c s = .ok (r, t) → c ≠ .step → c ≠ .run → t.state = s.state)

/-- R29: `len` changes only by LOAD, and a LOAD never decreases it. -/
def Obligations.OnlyLoadChangesLen : Prop :=
  ∀ (c : Command) (s t : State) (r : Response), command c s = .ok (r, t) →
    s.len ≤ t.len ∧ ((∀ p, c ≠ .load p) → t.len = s.len)

/-- R87: `pc` changes only by a step, and then by 4 for a completed add or multiply and by 1 for halt and for an illegal
opcode; a step that faults and every other command leave it. -/
def Obligations.PcMovesOnlyPastFetchedCells : Prop :=
  (∀ s t : State, step s = .next t →
    (t.pc = s.pc ∧ (s.state = .halted ∨ t.fault ≠ none)) ∨
    (t.pc = s.pc + 4 ∧ ∃ a b d, fetch s = .ok (.instr (.add a b d)) ∨ fetch s = .ok (.instr (.mul a b d))) ∨
    (t.pc = s.pc + 1 ∧ (fetch s = .ok (.instr .halt) ∨ ∃ v, fetch s = .ok (.illegal v)))) ∧
  (∀ (c : Command) (s t : State) (r : Response), command c s = .ok (r, t) → c ≠ .step → c ≠ .run → t.pc = s.pc)

/-- R96: the STEP that raises a fatal fault commits nothing but the latch; after it STEP and RUN return the recorded fault
and change nothing, STATUS answers, LOAD, READ and WRITE are refused, and no command clears the latch. -/
def Obligations.FatalFaultIsForGood : Prop :=
  (∀ (s t : State) (f : Fault), s.fault = none → stepCommand s = .ok (.fatal f, t) → t = { s with fault := some f }) ∧
  (∀ (s : State) (f : Fault), s.fault = some f →
    step s = .fault f ∧
    command .step s = .ok (.outcome (.fatal f), s) ∧
    command .run s = .ok (.outcome (.fatal f), s) ∧
    command .status s = .ok (.status s.pc s.state (some f) s.len, s) ∧
    (∀ p, ∃ r, command (.load p) s = .error r) ∧
    (∀ i, ∃ r, command (.read i) s = .error r) ∧
    (∀ i v, ∃ r, command (.write i v) s = .error r))

/-! ## RUN -/

/-- R74: RUN is its loop: one STEP, the outcome returned at a failure or once Halted, and RUN again otherwise. The bound
that makes the model's RUN a total function cuts no run short. -/
def Obligations.RunIsItsLoop : Prop :=
  (∀ s : State, runCommand s =
    match stepCommand s with
    | .error r => .error r
    | .ok (.ok, t) => if t.state = .halted then .ok (.ok, t) else runCommand t
    | .ok (o, t) => .ok (o, t)) ∧
  (∀ s : State, s.goodEnd → runCommand s = .ok (.ok, s)) ∧
  (∀ (s : State) (f : Fault), s.fault = some f → runCommand s = .ok (.fatal f, s))

/-- R75: RUN ends, within `floor((len - pc) / 4) + 1` STEPs: it answers an outcome from every state, a success only when
Halted; a STEP that succeeds and leaves the instance Active has moved `pc` by 4 and had four cells from `pc` on. -/
def Obligations.RunAlwaysEnds : Prop :=
  (∀ s : State, ∃ o t, runLoop ((s.len - s.pc) / 4 + 1) s = .ok (o, t) ∧ runCommand s = .ok (o, t) ∧
    (o = .ok → t.state = .halted)) ∧
  (∀ s t : State, stepCommand s = .ok (.ok, t) → t.state = .active →
    t.pc = s.pc + 4 ∧ s.pc + 3 < s.len ∧ t.len = s.len)

/-! ## The host's commands on memory -/

/-- R42, R43: LOAD makes the length `max(len, n)`, writes the prefix, keeps every later cell, and changes nothing else; a
LOAD of nothing changes nothing. -/
def Obligations.LoadOverwritesThePrefix : Prop :=
  ∀ (s : State) (p : List Word), s.fault = none → max s.len p.length ≤ Config.maxLen →
    ∃ t, command (.load p) s = .ok (.nothing, t) ∧ t.len = max s.len p.length ∧
      (∀ i : Nat, i < p.length → t.mem[i]? = p[i]?) ∧
      (∀ i : Nat, p.length ≤ i → t.mem[i]? = s.mem[i]?) ∧
      t.pc = s.pc ∧ t.state = s.state ∧ t.fault = s.fault ∧ (p = [] → t = s)

/-- R44: a LOAD that would pass MAX_LEN is refused, and MAX_LEN is at least 1 (R6). -/
def Obligations.LoadStopsAtCapacity : Prop :=
  1 ≤ Config.maxLen ∧
  ∀ (s : State) (p : List Word), Config.maxLen < max s.len p.length → ∃ r, command (.load p) s = .error r

/-- R45, R46, R47: with the latch clear, READ answers the cell and changes nothing, WRITE changes that one cell and nothing
else, and both are refused outside `0 <= i < len`. -/
def Obligations.HostReadAndWrite : Prop :=
  ∀ (s : State) (i : Int), s.fault = none →
    (s.validAddr i → ∃ w, s.mem[i.toNat]? = some w ∧ command (.read i) s = .ok (.cell w, s)) ∧
    (¬ s.validAddr i → ∃ r, command (.read i) s = .error r) ∧
    ∀ v : Word,
      (s.validAddr i → ∃ t, command (.write i v) s = .ok (.nothing, t) ∧ t.cell? i = some v ∧
        (∀ x : Int, x ≠ i → t.cell? x = s.cell? x) ∧ t.len = s.len ∧ t.pc = s.pc ∧ t.state = s.state ∧
        t.fault = s.fault) ∧
      (¬ s.validAddr i → ∃ r, command (.write i v) s = .error r)

/-- R48: STATUS returns `(pc, state, fault, len)` and changes no state, always. -/
def Obligations.StatusAnswersAlways : Prop :=
  ∀ s : State, command .status s = .ok (.status s.pc s.state s.fault s.len, s)

/-- R98: the outcome codes and their kinds; R22: the bit of the execution state. -/
def Obligations.OutcomeCodesAndStateBit : Prop :=
  StepOutcome.ok.code = 0 ∧ (∀ v, (StepOutcome.illegalOpcode v).code = 1) ∧
  (∀ k a, (StepOutcome.fatal (.outOfRange k a)).code = 2) ∧
  (∀ op x y, (StepOutcome.fatal (.overflow op x y)).code = 3) ∧
  AccessKind.fetch.code = 0 ∧ AccessKind.read.code = 1 ∧ AccessKind.write.code = 2 ∧
  AluOp.add.code = 1 ∧ AluOp.mul.code = 2 ∧ ExecState.active.bit = 0 ∧ ExecState.halted.bit = 1
end

