-- ==== Sys2Proof/Laws/PerInstr.lean ====
section
/-! SUPPORT. Statements about every instruction as syntax, one lemma per constructor. -/

/-- The encoding of an instruction is a well-formed run of cells that begins with its opcode's cell and has its
opcode's length (spec/30_encoding.md R55, R56, R61). -/
def Sys2Proof.Laws.EncodeShape.Statement (i : Sys2Proof.Instr) : Prop :=
  Sys2Proof.cellsWf (Sys2Proof.encode i) = true ∧
    (Sys2Proof.encode i).head? = some (Sys2Proof.Instr.opcode i).cell ∧
    (Sys2Proof.encode i).length = (Sys2Proof.Instr.opcode i).length

theorem Sys2Proof.Laws.EncodeShape.add (a b d : Sys2Proof.Word) :
    Sys2Proof.Laws.EncodeShape.Statement (.add a b d) := ⟨rfl, rfl, rfl⟩

theorem Sys2Proof.Laws.EncodeShape.mul (a b d : Sys2Proof.Word) :
    Sys2Proof.Laws.EncodeShape.Statement (.mul a b d) := ⟨rfl, rfl, rfl⟩

theorem Sys2Proof.Laws.EncodeShape.halt : Sys2Proof.Laws.EncodeShape.Statement .halt := ⟨rfl, rfl, rfl⟩
end

