-- ==== Sys2Proof/Tests/Slice0.lean ====
section
/-! SUPPORT. The model's own tests: expected results from the vectors of spec/95_test_vectors.md and the encodings of
spec/30_encoding.md, and for every statement with hypotheses a state and operands that meet them together. -/

namespace Sys2Proof.Tests

open Sys2Proof Sys2Proof.Machine

/-- A running instance with these cells and this `pc`. -/
def started (cells : List Word) (pc : Nat := 0) : State :=
  { pc := pc, mem := cells, state := .active, fault := none }

/-- The next state, if the answer is one. -/
def after (o : Host.Outcome State Fault Refusal) : Option State :=
  match o with
  | .next t => some t
  | .fault _ => none
  | .refused _ => none

/-- What a STEP reported, if it was not refused. -/
def outcomeOf (r : Except Refusal (StepOutcome × State)) : Option StepOutcome :=
  match r with
  | .ok (o, _) => some o
  | .error _ => none

/-- `2^63 - 1` and `-2^63`. -/
def maxW : Word := 9223372036854775807
def minW : Word := -9223372036854775808

/-! ## Well-formedness: each check refuses an ill-formed run of cells -/

theorem test_wf_refuses_opcode_five : cellsWf [5, 0, 0, 0] = false := by decide
theorem test_wf_refuses_opcode_minus_one : cellsWf [-1] = false := by decide
theorem test_wf_refuses_empty : cellsWf [] = false := by decide
theorem test_wf_refuses_short_add : cellsWf [1, 0, 0] = false := by decide
theorem test_wf_refuses_long_halt : cellsWf [99, 0] = false := by decide
theorem test_wf_accepts_mul : cellsWf [2, -1, 9, 0] = true := by decide
theorem test_wf_every_operand : (Instr.add (-1) 0 minW).wf = true := by decide

/-! ## Decoding: words written out from spec/30_encoding.md R57 -/

theorem test_decode_add : decode [0x0000000000000001#64, 9#64, 10#64, 11#64, 7#64] = .instr (.add 9 10 11) [7] := by decide
theorem test_decode_mul : decode [0x0000000000000002#64, 11#64, 12#64, 0#64] = .instr (.mul 11 12 0) [] := by decide
theorem test_decode_halt : decode [0x0000000000000063#64, 5#64] = .instr .halt [5] := by decide
/-- A Word is compared whole: bit 32 set beside the 1 is another value (R57, R62). -/
theorem test_decode_whole_cell : decode [0x0000000100000001#64, 0, 0, 0] = .illegal 0x0000000100000001 := by decide
/-- L2-A: 101, 1001, 0, MIN and MAX are illegal. -/
theorem test_decode_illegal :
    [101#64, 1001#64, 0#64, minW, maxW].map decodeOpcode = [none, none, none, none, none] := by decide
/-- L2-B: `2,0` ends before its cell 2. -/
theorem test_decode_short : decode [2, 0] = .missing 2 := by decide
theorem test_table_rows :
    decodeTableWord 64 1 = some (.add 0 0 0) ∧ decodeTableWord 64 2 = some (.mul 0 0 0) ∧
    decodeTableWord 64 0x63 = some .halt ∧ decodeTableWord 64 5 = none := by decide
/-- The second cell's bits are 127..64, the fourth's 255..192. -/
theorem test_table_cells :
    decodeTableWord 256 (1 + 7 * 2 ^ 64 + 8 * 2 ^ 128 + 9 * 2 ^ 192) = some (.add 7 8 9) := by decide

/-! ## One step each, from spec/95_test_vectors.md -/

/-- L1-1. -/
theorem test_add_own_opcode_cell :
    (after (step (started [1, 0, 0, 0, 99]))).map (fun t => (t.pc, t.mem)) = some (4, [2, 0, 0, 0, 99]) := by decide
/-- L2-C: -5 + 3 = -2. -/
theorem test_add_negative :
    (after (step (started [1, 5, 6, 0, 99, -5, 3]))).map (fun t => t.cell? 0) = some (some (-2)) := by decide
/-- L1-2. -/
theorem test_mul_dest_is_source :
    (after (step (started [2, 3, 0, 3, 99]))).map (fun t => (t.pc, t.mem)) = some (4, [2, 3, 0, 6, 99]) := by decide
/-- L2-D: MIN * (-1) overflows. -/
theorem test_mul_overflow :
    (after (step (started [2, 5, 6, 0, 99, minW, -1]))).map (fun t => (t.pc, t.cell? 0, t.fault)) =
      some (0, some 2, some (.overflow .mul minW (-1))) := by decide
/-- L1-4. -/
theorem test_halt :
    (after (step (started [99]))).map (fun t => (t.pc, t.state, t.mem)) = some (1, .halted, [99]) := by decide
/-- L2-G: a halt at the last cell of memory. -/
theorem test_halt_at_last_cell :
    (after (step (started [1, 0, 0, 0, 99] 4))).map (fun t => (t.pc, t.state)) = some (5, .halted) := by decide
/-- L1-7. -/
theorem test_illegal_opcode :
    (after (step (started [5]))).map (fun t => (t.pc, t.mem, t.state, t.fault)) = some (1, [5], .active, none) ∧
    outcomeOf (stepCommand (started [5])) = some (.illegalOpcode 5) := by decide
/-- L2-E: src_b is checked before dest. -/
theorem test_fault_order :
    (after (step (started [1, 0, 9, -2, 99]))).map (fun t => t.fault) = some (some (.outOfRange .read 9)) := by decide
/-- L2-E: overflow is checked before dest. -/
theorem test_overflow_before_dest :
    (after (step (started [2, 5, 5, -1, 99, maxW]))).map (fun t => t.fault) =
      some (some (.overflow .mul maxW maxW)) := by decide
/-- L2-B: a fresh instance. -/
theorem test_step_at_reset :
    (after (step State.reset)).map (fun t => t.fault) = some (some (.outOfRange .fetch 0)) := by decide
/-- L1-6. -/
theorem test_load_keeps_the_tail : loadCells [0, 0, 0, 99] [1, 2] = [1, 2, 0, 99] := by decide
/-- L2-H. -/
theorem test_load_grows : loadCells [1] [7, 8, 9] = [7, 8, 9] := by decide
/-- The host's probe runs the placed instruction as the first one after reset. -/
theorem test_probe_runs :
    (after (step (State.reset.withFetchWord 64 1))).map (fun t => (t.pc, t.mem)) = some (4, [2, 0, 0, 0]) ∧
    (after (step (State.reset.withFetchWord 64 2))).map (fun t => (t.pc, t.mem)) = some (4, [4, 0, 0, 0]) ∧
    (after (step (State.reset.withFetchWord 64 99))).map (fun t => (t.pc, t.state)) = some (1, .halted) := by decide

/-! ## Witnesses: for every statement with hypotheses, a state and operands that meet them, for each clause at a
boundary -/

theorem witness_DecoderHasFourCases :
    (started [99]).cell? 0 = some 99 ∧ (99 : Word).toInt = 99 ∧
    (started [98]).cell? 0 = some 98 ∧ (98 : Word).toInt ≠ 1 ∧ (98 : Word).toInt ≠ 2 ∧ (98 : Word).toInt ≠ 99 := by decide

theorem witness_LengthComesFromTheOpcode :
    ((1 : Word).toInt = 1 ∧ 3 ≤ [(0 : Word), 0, 0].length ∧ [(0 : Word), 0].length < 3) ∧
    ((2 : Word).toInt = 2) ∧ ((99 : Word).toInt = 99) ∧
    ((100 : Word).toInt ≠ 1 ∧ (100 : Word).toInt ≠ 2 ∧ (100 : Word).toInt ≠ 99) := by decide

theorem witness_DecodeAndEncodeAgree :
    (Instr.mul (-1) 7 minW).wf = true ∧
    decode [2, -1, 7, minW, 99] = .instr (.mul (-1) 7 minW) [99] ∧
    [2, -1, 7, minW, 99] = encode (.mul (-1) 7 minW) ++ [99] := by decide

theorem witness_StepRunsTheDecodedInstruction :
    (started [5, 1, 0, 0, 0, 99] 1).running ∧ (Instr.add 0 0 0).wf = true ∧
    decode ((started [5, 1, 0, 0, 0, 99] 1).mem.drop 1) = .instr (.add 0 0 0) [99] := by decide

theorem witness_HaltedStepDoesNothing : ((started [99] 1).setState .halted).goodEnd := by decide

/-- The four outcomes of a running step, one state each (L1-1, L1-4, L1-7, L2-B). -/
theorem witness_StateAfterEachOutcome :
    ((started [1, 0, 0, 0, 99]).running ∧
      fetch (started [1, 0, 0, 0, 99]) = .ok (.instr (.add 0 0 0)) ∧
      ∃ t, stepCommand (started [1, 0, 0, 0, 99]) = .ok (.ok, t)) ∧
    (fetch (started [99]) = .ok (.instr .halt) ∧ ∃ t, stepCommand (started [99]) = .ok (.ok, t)) ∧
    (∃ t, stepCommand (started [5]) = .ok (.illegalOpcode 5, t)) ∧
    (∃ t, stepCommand (started [1]) = .ok (.fatal (.outOfRange .fetch 1), t)) :=
  ⟨⟨by decide, rfl, _, rfl⟩, ⟨rfl, _, rfl⟩, ⟨_, rfl⟩, ⟨_, rfl⟩⟩

theorem witness_IllegalOpcodeIsReportedAndSkipped :
    (started [5, 100] 1).running ∧ (started [5, 100] 1).cell? 1 = some 100 ∧
    (100 : Word).toInt ≠ 1 ∧ (100 : Word).toInt ≠ 2 ∧ (100 : Word).toInt ≠ 99 := by decide

theorem witness_OpcodeFetchOutsideMemoryFaults :
    (started [1, 0, 0, 0] 4).running ∧ (started [1, 0, 0, 0] 4).len ≤ (started [1, 0, 0, 0] 4).pc := by decide

/-- MAX + 0 fits, and `dest` is the last cell. -/
theorem witness_AddWritesTheExactSum :
    (started [1, 4, 1, 5, maxW, 0]).cell? (4 : Word).toInt = some maxW ∧
    (started [1, 4, 1, 5, maxW, 0]).cell? (5 : Word).toInt = some 0 ∧
    fits (maxW.toInt + (0 : Word).toInt) ∧ (started [1, 4, 1, 5, maxW, 0]).validAddr (5 : Word).toInt := by decide

/-- MIN * 1 fits, and `dest` is a source. -/
theorem witness_MulWritesTheExactProduct :
    (started [1, minW]).cell? (1 : Word).toInt = some minW ∧ (started [1, minW]).cell? (0 : Word).toInt = some 1 ∧
    fits (minW.toInt * (1 : Word).toInt) ∧ (started [1, minW]).validAddr (1 : Word).toInt := by decide

theorem witness_ArithmeticChangesOnlyDest :
    (∃ t, exec (.add 0 0 0) (started [1]) = .next t) ∧ ∃ t, exec (.mul 0 0 1) (started [1]) = .next t :=
  ⟨⟨_, rfl⟩, ⟨_, rfl⟩⟩

/-- Each clause: the operands end at `len`; `src_a` at `len`; `src_b` negative; MAX + 1; `dest` at `len`; all in range. -/
theorem witness_AddStepFollowsItsRule :
    ((started [1, 0, 0]).running ∧ (started [1, 0, 0]).cell? 0 = some 1 ∧ (started [1, 0, 0]).len ≤ 3) ∧
    ((started [1, 4, 0, 0]).cell? 1 = some 4 ∧ ¬ (started [1, 4, 0, 0]).validAddr (4 : Word).toInt) ∧
    ((started [1, 3, -1, 0]).cell? 2 = some (-1) ∧ (started [1, 3, -1, 0]).validAddr (3 : Word).toInt ∧
      ¬ (started [1, 3, -1, 0]).validAddr (-1 : Word).toInt) ∧
    ((started [1, 4, 0, 0, maxW]).cell? 4 = some maxW ∧ (started [1, 4, 0, 0, maxW]).cell? 0 = some 1 ∧
      ¬ fits (maxW.toInt + (1 : Word).toInt)) ∧
    ((started [1, 0, 0, 4]).cell? 3 = some 4 ∧ fits ((1 : Word).toInt + (1 : Word).toInt) ∧
      ¬ (started [1, 0, 0, 4]).validAddr (4 : Word).toInt) ∧
    ((started [1, 0, 0, 3]).cell? 1 = some 0 ∧ (started [1, 0, 0, 3]).cell? 2 = some 0 ∧
      (started [1, 0, 0, 3]).cell? 3 = some 3 ∧ (started [1, 0, 0, 3]).validAddr (3 : Word).toInt) := by decide

/-- Each clause: the operands end at `len`; `src_a` negative; `src_b` at `len`; MIN * (-1); `dest` at `len`; all in range. -/
theorem witness_MulStepFollowsItsRule :
    ((started [2, 0, 0]).running ∧ (started [2, 0, 0]).cell? 0 = some 2 ∧ (started [2, 0, 0]).len ≤ 3) ∧
    ((started [2, -1, 0, 0]).cell? 1 = some (-1) ∧ ¬ (started [2, -1, 0, 0]).validAddr (-1 : Word).toInt) ∧
    ((started [2, 3, 4, 0]).cell? 2 = some 4 ∧ (started [2, 3, 4, 0]).validAddr (3 : Word).toInt ∧
      ¬ (started [2, 3, 4, 0]).validAddr (4 : Word).toInt) ∧
    ((started [2, 4, 5, 0, minW, -1]).cell? 4 = some minW ∧ (started [2, 4, 5, 0, minW, -1]).cell? 5 = some (-1) ∧
      ¬ fits (minW.toInt * (-1 : Word).toInt)) ∧
    ((started [2, 0, 0, 4]).cell? 3 = some 4 ∧ fits ((2 : Word).toInt * (2 : Word).toInt) ∧
      ¬ (started [2, 0, 0, 4]).validAddr (4 : Word).toInt) ∧
    ((started [2, 0, 0, 3]).cell? 1 = some 0 ∧ (started [2, 0, 0, 3]).cell? 2 = some 0 ∧
      (started [2, 0, 0, 3]).cell? 3 = some 3 ∧ (started [2, 0, 0, 3]).validAddr (3 : Word).toInt) := by decide

/-- R86: MIN + MAX and 3037000499 squared fit; MIN + (-1) and 3037000500 squared do not. -/
theorem witness_AluIsExactOrOverflows :
    fits (minW.toInt + maxW.toInt) ∧ ¬ fits (minW.toInt + (-1 : Word).toInt) ∧
    fits ((3037000499 : Word).toInt * (3037000499 : Word).toInt) ∧
    ¬ fits ((3037000500 : Word).toInt * (3037000500 : Word).toInt) := by decide

theorem witness_OverflowWritesNothing :
    (started [maxW, 2]).cell? (0 : Word).toInt = some maxW ∧ (started [maxW, 2]).cell? (1 : Word).toInt = some 2 ∧
    ¬ fits (maxW.toInt + (2 : Word).toInt) ∧ ¬ fits (maxW.toInt * (2 : Word).toInt) := by decide

theorem witness_AddLaws :
    (started [maxW, minW]).cell? (0 : Word).toInt = some maxW ∧
    (started [maxW, minW]).cell? (1 : Word).toInt = some minW ∧ fits (maxW.toInt + minW.toInt) ∧
    alu .add maxW minW = .ok (-1) := ⟨by decide, by decide, by decide, rfl⟩

/-- The four signs, each with a product that fits (L2-D), and a state for the swap. -/
theorem witness_MulLaws :
    (alu .mul 3 2 = .ok 6 ∧ alu .mul 4 (-3) = .ok (-12) ∧ alu .mul (-3) 4 = .ok (-12) ∧ alu .mul (-3) (-4) = .ok 12) ∧
    fits ((-3 : Word).toInt * (-4 : Word).toInt) ∧
    (started [-3, -4]).cell? (0 : Word).toInt = some (-3) ∧ (started [-3, -4]).cell? (1 : Word).toInt = some (-4) :=
  ⟨⟨rfl, rfl, rfl, rfl⟩, by decide, by decide, by decide⟩

/-- L3-P2 (a) in small: 98 + 1 and 99 * 1 written to the cell the next step fetches. -/
theorem witness_NextFetchSeesTheWrite :
    ((started [1, 5, 6, 4, 0, 98, 1]).running ∧ (started [1, 5, 6, 4, 0, 98, 1]).cell? (5 : Word).toInt = some 98 ∧
      (started [1, 5, 6, 4, 0, 98, 1]).cell? (6 : Word).toInt = some 1 ∧
      (4 : Word).toInt = ((started [1, 5, 6, 4, 0, 98, 1]).pc : Int) + 4 ∧
      (started [1, 5, 6, 4, 0, 98, 1]).validAddr (4 : Word).toInt ∧
      fits ((98 : Word).toInt + (1 : Word).toInt) ∧ (98 : Word).toInt + (1 : Word).toInt = 99 ∧
      fits ((98 : Word).toInt * (1 : Word).toInt)) ∧
    ((started [2, 5, 6, 4, 0, 99, 1]).cell? (5 : Word).toInt = some 99 ∧ (99 : Word).toInt * (1 : Word).toInt = 99) ∧
    (∃ t, exec (.add 5 6 4) (started [1, 5, 6, 4, 0, 98, 1]) = .next t) ∧
    ∃ t, exec (.mul 5 6 4) (started [2, 5, 6, 4, 0, 99, 1]) = .next t :=
  ⟨by decide, by decide, ⟨_, rfl⟩, ⟨_, rfl⟩⟩

/-- The halt at the last cell, and the fetch past it. -/
theorem witness_HaltStepFollowsItsRule :
    (started [5, 99] 1).running ∧ (started [5, 99] 1).cell? 1 = some 99 ∧
    (started [5, 99] 1).pc + 1 = (started [5, 99] 1).len ∧
    (started [5] 1).running ∧ (started [5] 1).cell? 1 = none := by decide

/-- `pc` at `len` after the one step of L1-1 without its halt, and then the fetch that faults (L3-P3). -/
theorem witness_StepKeepsTheInvariant :
    (started [1, 0, 0, 0] 4).Inv ∧ ∃ t, step (started [1, 0, 0, 0] 4) = .next t ∧
      t.fault = some (.outOfRange .fetch 4) :=
  ⟨⟨by decide, fun f h => by cases h⟩, _, rfl, rfl⟩

/-- A latched state has the invariant too: the fault is true of it. -/
theorem witness_latched_Inv :
    (raise (started [1, 0, 0, 0] 4) (.outOfRange .fetch 4)).Inv :=
  ⟨by decide, fun f h => by cases h; exact ⟨rfl, by decide, by decide, by decide⟩⟩

theorem witness_CommandsKeepTheInvariant :
    State.reset.Inv ∧ Memory.wf State.reset.mem ∧
    (∃ r t, command (.load [99]) State.reset = .ok (r, t)) ∧
    (∃ r t, command (.write 0 7) (started [1]) = .ok (r, t)) ∧
    (∃ r t, command .step (started [99]) = .ok (r, t)) ∧
    ∃ r t, command .run (started [1, 0, 0, 0, 99]) = .ok (r, t) := by
  refine ⟨⟨by decide, fun f h => by cases h⟩, reset_wf, ⟨.nothing, State.reset.setMem [99], ?_⟩, ⟨_, _, rfl⟩, ⟨_, _, rfl⟩, ⟨_, _, rfl⟩⟩
  have h : max State.reset.len [(99 : Word)].length ≤ Config.maxLen := by
    simp [State.len, State.reset, Config.maxLen]
  simp only [command, loadCommand]
  rw [if_pos h]
  rfl

theorem witness_StepNeverRefuses :
    (∃ t, step (started [99]) = .next t) ∧ Memory.wf (started [99]).mem ∧
    step (raise (started [1]) (.outOfRange .fetch 1)) = .fault (.outOfRange .fetch 1) :=
  ⟨⟨_, rfl⟩, by simp [Memory.wf, started, Config.maxLen], rfl⟩

theorem witness_HaltedIsAbsorbing :
    (∃ t, command .step ((started [99] 1).setState .halted) = .ok (.outcome .ok, t)) ∧
    (∃ t, step (started [99]) = .next t ∧ t.state = .halted) ∧
    (∃ t, step (started [1, 0, 0, 0]) = .next t ∧ t.state = .active) ∧
    (∃ t, command (.write 0 1) ((started [99] 1).setState .halted) = .ok (.nothing, t)) :=
  ⟨⟨_, rfl⟩, ⟨_, rfl, rfl⟩, ⟨_, rfl, rfl⟩, ⟨_, rfl⟩⟩

theorem witness_OnlyLoadChangesLen :
    (∃ t, command (.write 0 1) (started [99]) = .ok (.nothing, t)) ∧ ∀ p, (Command.write 0 1) ≠ .load p :=
  ⟨⟨_, rfl⟩, fun p h => by cases h⟩

theorem witness_PcMovesOnlyPastFetchedCells :
    (∃ t, step (started [1, 0, 0, 0]) = .next t ∧ t.pc = 4) ∧ (∃ t, step (started [99]) = .next t ∧ t.pc = 1) ∧
    (∃ t, step (started [5]) = .next t ∧ t.pc = 1) ∧ (∃ t, step (started [1]) = .next t ∧ t.pc = 0) ∧
    (∃ t, command (.write 0 1) (started [99]) = .ok (.nothing, t)) ∧
    Command.write 0 1 ≠ .step ∧ Command.write 0 1 ≠ .run :=
  ⟨⟨_, rfl, rfl⟩, ⟨_, rfl, rfl⟩, ⟨_, rfl, rfl⟩, ⟨_, rfl, rfl⟩, ⟨_, rfl⟩, by decide, by decide⟩

theorem witness_FatalFaultIsForGood :
    (started [1]).fault = none ∧
    (∃ t, stepCommand (started [1]) = .ok (.fatal (.outOfRange .fetch 1), t)) ∧
    (raise (started [1]) (.outOfRange .fetch 1)).fault = some (.outOfRange .fetch 1) :=
  ⟨rfl, ⟨_, rfl⟩, rfl⟩

theorem witness_RunIsItsLoop :
    ((started [99] 1).setState .halted).goodEnd ∧
    (raise (started [1]) (.outOfRange .fetch 1)).fault = some (.outOfRange .fetch 1) := by decide

theorem witness_RunAlwaysEnds :
    ∃ t, stepCommand (started [1, 0, 0, 0]) = .ok (.ok, t) ∧ t.state = .active := ⟨_, rfl, rfl⟩

theorem witness_LoadOverwritesThePrefix :
    State.reset.fault = none ∧ max State.reset.len [(99 : Word)].length ≤ Config.maxLen :=
  ⟨rfl, by simp [State.len, State.reset, Config.maxLen]⟩

theorem witness_LoadStopsAtCapacity :
    Config.maxLen < max State.reset.len (List.replicate (Config.maxLen + 1) (0 : Word)).length := by
  simp [State.len, State.reset]

/-- The last cell, the address after it, and a negative one. -/
theorem witness_HostReadAndWrite :
    (started [7, 8]).fault = none ∧ (started [7, 8]).validAddr 1 ∧ ¬ (started [7, 8]).validAddr 2 ∧
    ¬ (started [7, 8]).validAddr (-1) := by decide

end Sys2Proof.Tests
end

/-! # What one step can do, and the obligations on the whole state (spec/10_state.md)

A step is inverted once, as `StepCase`, with one constructor per row of spec/40_fetch_decode_execute.md R69; the
invariants below are case analyses over it. RUN is a chain of steps (`Steps`), so what every step keeps, RUN keeps. -/

namespace Sys2Proof.Machine

/-! ## `len` and the cells after each field's write -/

@[simp] theorem setPc_len (s : State) (p : Nat) : (s.setPc p).len = s.len := rfl
@[simp] theorem setState_len (s : State) (e : ExecState) : (s.setState e).len = s.len := rfl
@[simp] theorem raise_len (s : State) (f : Fault) : (raise s f).len = s.len := rfl
@[simp] theorem skipIllegal_len (s : State) : (skipIllegal s).len = s.len := rfl

@[simp] theorem setPc_cell? (s : State) (p : Nat) (a : Int) : (s.setPc p).cell? a = s.cell? a := rfl
@[simp] theorem raise_cell? (s : State) (f : Fault) (a : Int) : (raise s f).cell? a = s.cell? a := rfl

@[simp] theorem setMem_loadCells_len (s : State) (p : List Word) :
    (s.setMem (loadCells s.mem p)).len = max s.len p.length := loadCells_length s.mem p

@[simp] theorem setMem_set_len (s : State) (n : Nat) (v : Word) : (s.setMem (s.mem.set n v)).len = s.len :=
  List.length_set

theorem wf_mem_iff (s : State) : Memory.wf s.mem ↔ s.len ≤ Config.maxLen := Iff.rfl

theorem lt_len_of_cell? {s : State} {n : Nat} {w : Word} (h : s.cell? (n : Int) = some w) : n < s.len :=
  Int.ofNat_lt.1 (validAddr_of_cell? h).2

theorem len_le_of_cell?_eq_none {s : State} {n : Nat} (h : s.cell? (n : Int) = none) : s.len ≤ n := by
  have hv : ¬ s.validAddr (n : Int) := (cell?_eq_none_iff s n).1 h
  simp only [State.validAddr] at hv
  omega

/-! ## How a fetch ends -/

theorem fetchFormatA_ok {mk : Word → Word → Word → Instr} {s : State} {r : Fetched}
    (h : fetchFormatA mk s = .ok r) : s.pc + 4 ≤ s.len ∧ ∃ a b d, r = .instr (mk a b d) := by
  rcases fetchFormatA_cases mk s with ⟨a, b, d, -, -, hd, e⟩ | ⟨_, -, -, -, -, e⟩
  · rw [e] at h
    cases h
    exact ⟨lt_len_of_cell? hd, a, b, d, rfl⟩
  · simp [e] at h

theorem fetchFormatA_error {mk : Word → Word → Word → Instr} {s : State} {f : Fault}
    (h : fetchFormatA mk s = .error f) :
    ∃ k ≤ 3, s.len ≤ s.pc + k ∧ f = .outOfRange .fetch ((s.pc + k : Nat) : Int) := by
  rcases fetchFormatA_cases mk s with ⟨_, _, _, -, -, -, e⟩ | ⟨k, -, hk, hnone, -, e⟩
  · simp [e] at h
  · rw [e] at h
    cases h
    exact ⟨k, hk, len_le_of_cell?_eq_none hnone, rfl⟩

/-- A fetched instruction lies within memory, whole (spec/40_fetch_decode_execute.md R67). -/
theorem fetch_instr_le_len {s : State} {i : Instr} (h : fetch s = .ok (.instr i)) :
    s.pc + i.opcode.length ≤ s.len := by
  rcases fetch_cases s with ⟨-, e⟩ | ⟨_, -, -, e⟩ | ⟨_, ho, -, e⟩ | ⟨_, -, -, e⟩ | ⟨_, -, -, e⟩ <;> rw [e] at h
  case inl => cases h
  case inr.inl => cases h
  case inr.inr.inl => cases h; exact lt_len_of_cell? ho
  all_goals
    obtain ⟨hlen, a, b, d, hi⟩ := fetchFormatA_ok h
    cases hi
    exact hlen

theorem fetch_illegal_lt_len {s : State} {v : Word} (h : fetch s = .ok (.illegal v)) : s.pc < s.len := by
  rcases fetch_cases s with ⟨-, e⟩ | ⟨_, ho, -, -⟩ | ⟨_, ho, -, -⟩ | ⟨_, ho, -, -⟩ | ⟨_, ho, -, -⟩
  case inl => simp [e] at h
  all_goals exact lt_len_of_cell? ho

/-- A fetch fails at the first of the cells `pc` to `pc + 3` that is missing (spec/60_exceptions.md R94). -/
theorem fetch_error {s : State} {f : Fault} (h : fetch s = .error f) :
    ∃ k ≤ 3, s.len ≤ s.pc + k ∧ f = .outOfRange .fetch ((s.pc + k : Nat) : Int) := by
  rcases fetch_cases s with ⟨hnone, e⟩ | ⟨_, -, -, e⟩ | ⟨_, -, -, e⟩ | ⟨_, -, -, e⟩ | ⟨_, -, -, e⟩ <;> rw [e] at h
  case inl => cases h; exact ⟨0, by decide, len_le_of_cell?_eq_none hnone, rfl⟩
  case inr.inl => cases h
  case inr.inr.inl => cases h
  all_goals exact fetchFormatA_error h

/-! ## How the effect of add and multiply ends -/

/-- The frame of a completed add or multiply. -/
theorem arithmetic_ok {op : AluOp} {a b d : Word} {s t : State} (h : arithmetic op a b d s = .ok t) :
    t.pc = s.pc + 4 ∧ t.state = s.state ∧ t.fault = s.fault ∧ t.len = s.len ∧
      ∀ x : Int, x ≠ operandAddr d → t.cell? x = s.cell? x := by
  rcases arithmetic_cases op a b d s with
    ⟨-, e⟩ | ⟨_, -, -, e⟩ | ⟨_, _, -, -, -, e⟩ | ⟨_, _, -, -, -, -, e⟩ | ⟨_, _, u, -, -, -, hw, e⟩ <;>
    rw [e] at h <;> cases h
  obtain ⟨-, hstate, hfault, hlen⟩ := memWrite_frame hw
  refine ⟨rfl, hstate, hfault, hlen, fun x hx => ?_⟩
  rw [setPc_cell?, cell?_memWrite hw, if_neg hx]

theorem arithmetic_error_justified {op : AluOp} {a b d : Word} {s : State} {f : Fault}
    (h : arithmetic op a b d s = .error f) : f.justified s := by
  rcases arithmetic_cases op a b d s with
    ⟨ha, e⟩ | ⟨_, -, hb, e⟩ | ⟨_, _, -, -, hfit, e⟩ | ⟨_, _, -, -, -, hd, e⟩ | ⟨_, _, _, -, -, -, -, e⟩ <;>
    rw [e] at h <;> cases h
  case inl => exact (cell?_eq_none_iff s _).1 ha
  case inr.inl => exact (cell?_eq_none_iff s _).1 hb
  case inr.inr.inl => exact hfit
  case inr.inr.inr.inl => exact hd

/-- The instruction that has the ALU do `op`. -/
def AluOp.instr : AluOp → Word → Word → Word → Instr
  | .add => .add
  | .mul => .mul

theorem instr_ne_halt (op : AluOp) (a b d : Word) : op.instr a b d ≠ .halt := by
  cases op <;> simp [AluOp.instr]

@[simp] theorem instr_opcode_length (op : AluOp) (a b d : Word) : (op.instr a b d).opcode.length = 4 := by
  cases op <;> rfl

theorem exec_instr (op : AluOp) (a b d : Word) (s : State) :
    exec (op.instr a b d) s = finish s (arithmetic op a b d s) := by
  cases op <;> rfl

/-- The frame of add and multiply at once: the effect in full, or a fault raised on the state before. -/
theorem exec_instr_frame {op : AluOp} {a b d : Word} {s t : State} (h : exec (op.instr a b d) s = .next t) :
    t.state = s.state ∧ t.len = s.len ∧ (∀ x : Int, x ≠ operandAddr d → t.cell? x = s.cell? x) ∧
      ((t.pc = s.pc + 4 ∧ t.fault = s.fault) ∨
        (t.pc = s.pc ∧ (∃ f, t.fault = some f) ∧ ∀ x : Int, t.cell? x = s.cell? x)) := by
  rw [exec_instr] at h
  rcases finish_cases s (arithmetic op a b d s) with ⟨u, he, hfin⟩ | ⟨f, he, hfin⟩ <;> rw [hfin] at h <;> cases h
  · obtain ⟨hpc, hstate, hfault, hlen, hcells⟩ := arithmetic_ok he
    exact ⟨hstate, hlen, hcells, .inl ⟨hpc, hfault⟩⟩
  · exact ⟨rfl, rfl, fun _ _ => rfl, .inr ⟨rfl, ⟨f, rfl⟩, fun _ => rfl⟩⟩

/-! ## Everything a step can do -/

theorem step_of_fault {s : State} {f : Fault} (h : s.fault = some f) : step s = .fault f := by
  simp [step, h]

theorem step_of_goodEnd {s : State} (h : s.goodEnd) : step s = .next s := by
  simp [step, h.1, h.2]

theorem step_of_fetch_error {s : State} {f : Fault} (hr : s.running) (h : fetch s = .error f) :
    step s = .next (raise s f) := by
  simp [step, hr.1, hr.2, h]

theorem step_of_fetch_illegal {s : State} {v : Word} (hr : s.running) (h : fetch s = .ok (.illegal v)) :
    step s = .next (skipIllegal s) := by
  simp [step, hr.1, hr.2, h]

theorem step_of_fetch_instr {s : State} {i : Instr} (hr : s.running) (h : fetch s = .ok (.instr i)) :
    step s = exec i s := by
  simp [step, hr.1, hr.2, h]

/-- The ways a step from `s` can end: a latch already set (R96), a Halted machine (R66), and the rows of R69. -/
inductive StepCase (s : State) : Host.Outcome State Fault Refusal → Prop where
  | latched {f} (hfault : s.fault = some f) : StepCase s (.fault f)
  | halted (hend : s.goodEnd) : StepCase s (.next s)
  | fetchFault {f} (hr : s.running) (hf : fetch s = .error f) : StepCase s (.next (raise s f))
  | illegal {v} (hr : s.running) (hf : fetch s = .ok (.illegal v)) : StepCase s (.next (skipIllegal s))
  | halt (hr : s.running) (hf : fetch s = .ok (.instr .halt)) :
      StepCase s (.next ((s.setPc (s.pc + 1)).setState .halted))
  | completed {op a b d t} (hr : s.running) (hf : fetch s = .ok (.instr (op.instr a b d)))
      (he : arithmetic op a b d s = .ok t) : StepCase s (.next t)
  | arithmeticFault {op a b d f} (hr : s.running) (hf : fetch s = .ok (.instr (op.instr a b d)))
      (he : arithmetic op a b d s = .error f) : StepCase s (.next (raise s f))

theorem stepCase_of_arithmetic {s : State} (op : AluOp) {a b d : Word} (hr : s.running)
    (hf : fetch s = .ok (.instr (op.instr a b d))) : StepCase s (step s) := by
  rw [step_of_fetch_instr hr hf, exec_instr]
  rcases finish_cases s (arithmetic op a b d s) with ⟨t, he, hfin⟩ | ⟨f, he, hfin⟩ <;> rw [hfin]
  · exact .completed hr hf he
  · exact .arithmeticFault hr hf he

theorem stepCase (s : State) : StepCase s (step s) := by
  cases hfault : s.fault with
  | some f => rw [step_of_fault hfault]; exact .latched hfault
  | none =>
    cases hstate : s.state with
    | halted => rw [step_of_goodEnd ⟨hstate, hfault⟩]; exact .halted ⟨hstate, hfault⟩
    | active =>
      have hr : s.running := ⟨hstate, hfault⟩
      match hf : fetch s with
      | .error f => rw [step_of_fetch_error hr hf]; exact .fetchFault hr hf
      | .ok (.illegal v) => rw [step_of_fetch_illegal hr hf]; exact .illegal hr hf
      | .ok (.instr .halt) => rw [step_of_fetch_instr hr hf]; exact .halt hr hf
      | .ok (.instr (.add _ _ _)) => exact stepCase_of_arithmetic .add hr hf
      | .ok (.instr (.mul _ _ _)) => exact stepCase_of_arithmetic .mul hr hf

theorem stepCase_of_eq {s : State} {o : Host.Outcome State Fault Refusal} (h : step s = o) : StepCase s o :=
  h ▸ stepCase s

theorem step_len {s t : State} (h : step s = .next t) : t.len = s.len := by
  cases stepCase_of_eq h with
  | completed _ _ he =>
    obtain ⟨-, -, -, hlen, -⟩ := arithmetic_ok he
    exact hlen
  | halted | fetchFault | illegal | halt | arithmeticFault => rfl

theorem step_keeps_wf {s t : State} (h : step s = .next t) (hm : Memory.wf s.mem) : Memory.wf t.mem := by
  rw [wf_mem_iff, step_len h]
  exact hm

theorem step_halts_iff {s t : State} (h : step s = .next t) (ha : s.state = .active) :
    t.state = .halted ↔ fetch s = .ok (.instr .halt) := by
  cases stepCase_of_eq h with
  | halted hend => simp [hend.1] at ha
  | halt _ hf => simp [hf]
  | fetchFault _ hf => simp [hf, ha]
  | illegal _ hf => simp [hf, ha]
  | completed _ hf he =>
    obtain ⟨-, hstate, -⟩ := arithmetic_ok he
    simp [hf, hstate, ha, instr_ne_halt]
  | arithmeticFault _ hf _ => simp [hf, ha, instr_ne_halt]

theorem step_keeps_halted {s t : State} (hs : s.state = .halted) (h : step s = .next t) : t.state = .halted := by
  cases hfault : s.fault with
  | some f => simp [step_of_fault hfault] at h
  | none =>
    rw [step_of_goodEnd ⟨hs, hfault⟩] at h
    cases h
    exact hs

/-! ## The invariant along a step -/

theorem inv_of_fault_eq_none {s : State} (hfault : s.fault = none) (hpc : s.pc ≤ s.len) : s.Inv :=
  ⟨hpc, fun f hf => by simp [hfault] at hf⟩

/-- Whether a fault is true of a state depends on `pc` and `len` alone, which `raise` keeps. -/
theorem raise_justified {s : State} {f g : Fault} (h : f.justified s) : f.justified (raise s g) := by
  match f, h with
  | .outOfRange .fetch _, h => exact h
  | .outOfRange .read _, h => exact h
  | .outOfRange .write _, h => exact h
  | .overflow _ _ _, h => exact h

theorem raise_inv {s : State} {f : Fault} (hpc : s.pcInRange) (ha : s.state = .active) (hj : f.justified s) :
    (raise s f).Inv := by
  refine ⟨hpc, fun g hg => ⟨ha, ?_⟩⟩
  cases hg
  exact raise_justified hj

theorem fetch_error_justified {s : State} {f : Fault} (h : fetch s = .error f) : f.justified s := by
  obtain ⟨k, hk, hlen, rfl⟩ := fetch_error h
  simp only [Fault.justified]
  omega

theorem step_keeps_inv {s t : State} (hi : s.Inv) (h : step s = .next t) : t.Inv := by
  have hpc : s.pc ≤ s.len := hi.1
  cases stepCase_of_eq h with
  | halted => exact hi
  | fetchFault hr hf => exact raise_inv hpc hr.1 (fetch_error_justified hf)
  | illegal hr hf => exact inv_of_fault_eq_none hr.2 (fetch_illegal_lt_len hf)
  | halt hr hf => exact inv_of_fault_eq_none hr.2 (fetch_instr_le_len hf)
  | completed hr hf he =>
    obtain ⟨hpc4, -, hfault, hlen, -⟩ := arithmetic_ok he
    refine inv_of_fault_eq_none (hfault.trans hr.2) ?_
    rw [hpc4, hlen]
    simpa using fetch_instr_le_len hf
  | arithmeticFault hr _ he => exact raise_inv hpc hr.1 (arithmetic_error_justified he)

/-! ## STEP and RUN as chains of steps -/

/-- `t` is `s` or comes from it by steps that each answered a next state. -/
def Steps : State → State → Prop := Relation.ReflTransGen fun s t => step s = .next t

/-- What every step keeps, a chain of steps keeps. -/
theorem Steps.keeps {P : State → Prop} (hstep : ∀ {s t : State}, P s → step s = .next t → P t) {s t : State}
    (h : Steps s t) (hs : P s) : P t := by
  induction h with
  | refl => exact hs
  | tail _ hlast ih => exact hstep ih hlast

theorem steps_of_stepCommand {s t : State} {o : StepOutcome} (h : stepCommand s = .ok (o, t)) : Steps s t := by
  unfold stepCommand at h
  cases hs : step s with
  | next u =>
    rw [hs] at h
    cases h
    exact .single hs
  | fault f =>
    rw [hs] at h
    cases h
    exact .refl
  | refused r => simp [hs] at h

theorem steps_of_runLoop {n : Nat} {s t : State} {o : StepOutcome} (h : runLoop n s = .ok (o, t)) : Steps s t := by
  induction n generalizing s with
  | zero => cases h
  | succ n ih =>
    unfold runLoop at h
    split at h
    next => cases h
    next u hc =>
      have hu : Steps s u := steps_of_stepCommand hc
      split at h
      next => cases h; exact hu
      next => exact hu.trans (ih h)
    next hc => cases h; exact steps_of_stepCommand hc
    next hc => cases h; exact steps_of_stepCommand hc

theorem Steps.len_eq {s t : State} (h : Steps s t) : t.len = s.len :=
  h.keeps (P := fun u => u.len = s.len) (fun hlen hstep => (step_len hstep).trans hlen) rfl

/-! ## Everything a host command can do -/

theorem unlessFaulted_ok {s t : State} {c : Except Refusal (Response × State)} {r : Response}
    (h : unlessFaulted s c = .ok (r, t)) : s.fault = none ∧ c = .ok (r, t) := by
  unfold unlessFaulted at h
  split at h
  · cases h
  next hf => exact ⟨hf, h⟩

theorem loadCommand_ok {p : List Word} {s t : State} {r : Response} (h : loadCommand p s = .ok (r, t)) :
    s.fault = none ∧ max s.len p.length ≤ Config.maxLen ∧ t = s.setMem (loadCells s.mem p) := by
  obtain ⟨hfault, hc⟩ := unlessFaulted_ok h
  split at hc
  next hmax => cases hc; exact ⟨hfault, hmax, rfl⟩
  · cases hc

theorem readCommand_ok {i : Int} {s t : State} {r : Response} (h : readCommand i s = .ok (r, t)) : t = s := by
  obtain ⟨-, hc⟩ := unlessFaulted_ok h
  split at hc
  · cases hc; rfl
  · cases hc

theorem writeCommand_ok {i : Int} {v : Word} {s t : State} {r : Response} (h : writeCommand i v s = .ok (r, t)) :
    s.fault = none ∧ t = s.setMem (s.mem.set i.toNat v) := by
  obtain ⟨hfault, hc⟩ := unlessFaulted_ok h
  split at hc
  · cases hc; exact ⟨hfault, rfl⟩
  · cases hc

theorem asResponse_ok {e : Except Refusal (StepOutcome × State)} {t : State} {r : Response}
    (h : asResponse e = .ok (r, t)) : ∃ o, e = .ok (o, t) := by
  unfold asResponse at h
  split at h
  · cases h; exact ⟨_, rfl⟩
  · cases h

/-- What an answered command does to the state `s`, by command (R117). -/
inductive CommandCase (s : State) : Command → State → Prop where
  | load {p} (hfault : s.fault = none) (hmax : max s.len p.length ≤ Config.maxLen) :
      CommandCase s (.load p) (s.setMem (loadCells s.mem p))
  | read {i} : CommandCase s (.read i) s
  | write {i v} (hfault : s.fault = none) : CommandCase s (.write i v) (s.setMem (s.mem.set i.toNat v))
  | status : CommandCase s .status s
  | step {t} (h : Steps s t) : CommandCase s .step t
  | run {t} (h : Steps s t) : CommandCase s .run t

theorem commandCase_of_ok {c : Command} {s t : State} {r : Response} (h : command c s = .ok (r, t)) :
    CommandCase s c t := by
  cases c with
  | load p => obtain ⟨hfault, hmax, rfl⟩ := loadCommand_ok h; exact .load hfault hmax
  | read i => obtain rfl := readCommand_ok h; exact .read
  | write i v => obtain ⟨hfault, rfl⟩ := writeCommand_ok h; exact .write hfault
  | status => cases h; exact .status
  | step => obtain ⟨o, ho⟩ := asResponse_ok h; exact .step (steps_of_stepCommand ho)
  | run => obtain ⟨o, ho⟩ := asResponse_ok h; exact .run (steps_of_runLoop ho)

theorem command_keeps_inv {c : Command} {s t : State} {r : Response} (hi : s.Inv) (h : command c s = .ok (r, t)) :
    t.Inv := by
  have hpc : s.pc ≤ s.len := hi.1
  cases commandCase_of_ok h with
  | load hfault _ =>
    refine inv_of_fault_eq_none hfault ?_
    rw [setMem_loadCells_len]
    exact hpc.trans (le_max_left _ _)
  | write hfault =>
    refine inv_of_fault_eq_none hfault ?_
    rw [setMem_set_len]
    exact hpc
  | read | status => exact hi
  | step hs | run hs => exact hs.keeps step_keeps_inv hi

theorem command_keeps_wf {c : Command} {s t : State} {r : Response} (hm : Memory.wf s.mem)
    (h : command c s = .ok (r, t)) : Memory.wf t.mem := by
  cases commandCase_of_ok h with
  | load _ hmax => exact loadCells_keeps_wf hmax
  | write => exact set_keeps_wf _ _ hm
  | read | status => exact hm
  | step hs | run hs => exact hs.keeps (P := fun u => Memory.wf u.mem) (fun hu hstep => step_keeps_wf hstep hu) hm

/-! ## The obligations -/

/-- Settles O28, by the cases of a step: a fault is raised only where it is true, and `pc` passes fetched cells only. -/
theorem stepKeepsTheInvariant : Obligations.StepKeepsTheInvariant :=
  fun _ _ => step_keeps_inv

/-- Settles O29: LOAD and WRITE are answered only with the latch clear, and STEP and RUN are chains of steps. -/
theorem commandsKeepTheInvariant : Obligations.CommandsKeepTheInvariant :=
  fun _ _ _ _ hi hm h => ⟨command_keeps_inv hi h, command_keeps_wf hm h⟩

/-- Settles O18: add and mul are `AluOp.instr` of their operation, and share one frame. -/
theorem arithmeticChangesOnlyDest : Obligations.ArithmeticChangesOnlyDest := by
  rintro s t a b d (h | h)
  · exact exec_instr_frame (op := .add) h
  · exact exec_instr_frame (op := .mul) h

/-- Settles O30, by the cases of a step: only a set latch answers no next state. -/
theorem stepNeverRefuses : Obligations.StepNeverRefuses := by
  refine fun s => ⟨fun r h => ?_, fun f => ⟨fun h => ?_, step_of_fault⟩, fun t => step_keeps_wf⟩
  · cases stepCase_of_eq h
  · cases stepCase_of_eq h with
    | latched hfault => exact hfault

/-- Settles O31: a step of a Halted machine stays put, and of the cases of a step only `halt` sets the execution state. -/
theorem haltedIsAbsorbing : Obligations.HaltedIsAbsorbing := by
  refine ⟨fun c s t r h hs => ?_, fun s t => step_halts_iff, fun s t r c h hstep hrun => ?_⟩
  · cases commandCase_of_ok h with
    | load | read | write | status => exact hs
    | step hc | run hc => exact hc.keeps (P := fun u => u.state = .halted) step_keeps_halted hs
  · cases commandCase_of_ok h with
    | load | read | write | status => rfl
    | step => exact absurd rfl hstep
    | run => exact absurd rfl hrun

/-- Settles O32: LOAD takes a maximum, and no write and no step changes the number of cells. -/
theorem onlyLoadChangesLen : Obligations.OnlyLoadChangesLen := by
  intro c s t r h
  cases commandCase_of_ok h with
  | @load p =>
    rw [setMem_loadCells_len]
    exact ⟨le_max_left _ _, fun hne => absurd rfl (hne p)⟩
  | write => simp
  | read | status => simp
  | step hc | run hc => exact ⟨hc.len_eq.ge, fun _ => hc.len_eq⟩

/-- Settles O2: the latch is clear and `pc` is 0. -/
theorem resetMeetsTheInvariant : Obligations.ResetMeetsTheInvariant :=
  ⟨inv_of_fault_eq_none rfl (Nat.zero_le _), reset_wf⟩

end Sys2Proof.Machine

/-! # Memory: fetching from it, and the host's commands on it (spec/20_memory.md)

The cells from `pc` on are the run that the decoder reads, cell by cell; a fetch is then `fetchedOf` the decoder's verdict.
The write of an add or multiply, and the host's WRITE, are both `memWrite`, so each is read back by `cell?_memWrite`. -/

namespace Sys2Proof.Machine

/-! ## The fetch phase and the decoder -/

/-- What the fetch phase at `pc` makes of the decoder's verdict on the cells from `pc` on: a cell that is not there is a
fetch out of range (spec/60_exceptions.md R94). -/
def fetchedOf (pc : Nat) : Decoded → Except Fault Fetched
  | .instr i _ => .ok (.instr i)
  | .illegal v => .ok (.illegal v)
  | .missing k => .error (.outOfRange .fetch ((pc + k : Nat) : Int))

theorem drop_of_cell?_eq_some {s : State} {n : Nat} {w : Word} (h : s.cell? (n : Int) = some w) :
    s.mem.drop n = w :: s.mem.drop (n + 1) := by
  rw [cell?_natCast] at h
  obtain ⟨hlt, rfl⟩ := List.getElem?_eq_some_iff.1 h
  exact List.drop_eq_getElem_cons hlt

theorem drop_of_cell?_eq_none {s : State} {n : Nat} (h : s.cell? (n : Int) = none) : s.mem.drop n = [] :=
  List.drop_eq_nil_of_le (len_le_of_cell?_eq_none h)

/-- The operand fetches end as the decoder's reading of the cells after `pc`; the first missing cell is where that run of
cells ends. -/
theorem fetchFormatA_eq_fetchedOf (mk : Word → Word → Word → Instr) (s : State) :
    fetchFormatA mk s = fetchedOf s.pc (decodeFormatA mk (s.mem.drop (s.pc + 1))) := by
  rcases fetchFormatA_cases mk s with ⟨a, b, d, ha, hb, hd, e⟩ | ⟨k, hk1, hk3, hnone, hbefore, e⟩ <;> rw [e]
  · rw [drop_of_cell?_eq_some ha, drop_of_cell?_eq_some hb, drop_of_cell?_eq_some hd]
    rfl
  · have hend : s.mem.length ≤ s.pc + k := len_le_of_cell?_eq_none hnone
    have hlength : 1 + (s.mem.drop (s.pc + 1)).length = k := by
      rw [List.length_drop]
      rcases hk1.eq_or_lt with rfl | hk
      · omega
      · obtain ⟨w, hw⟩ := Option.isSome_iff_exists.1 (hbefore (k - 1) (by omega) (by omega))
        have hlt : s.pc + (k - 1) < s.mem.length := lt_len_of_cell? hw
        omega
    rcases decodeFormatA_cases mk (s.mem.drop (s.pc + 1)) with ⟨_, _, _, _, hcs, -⟩ | ⟨-, hmissing⟩
    · simp only [hcs, List.length_cons] at hlength
      omega
    · rw [hmissing, hlength]
      rfl

theorem fetch_eq_fetchedOf (s : State) : fetch s = fetchedOf s.pc (decode (s.mem.drop s.pc)) := by
  rcases fetch_cases s with
    ⟨hnone, e⟩ | ⟨_, hop, hdec, e⟩ | ⟨_, hop, hdec, e⟩ | ⟨_, hop, hdec, e⟩ | ⟨_, hop, hdec, e⟩ <;> rw [e]
  case inl => rw [drop_of_cell?_eq_none hnone]; rfl
  all_goals rw [drop_of_cell?_eq_some hop]; simp only [decode, hdec]
  case inr.inl | inr.inr.inl => rfl
  all_goals exact fetchFormatA_eq_fetchedOf _ s

theorem fetch_of_len_le_pc {s : State} (h : s.len ≤ s.pc) : fetch s = .error (.outOfRange .fetch s.pc) := by
  rw [fetch_eq_fetchedOf, List.drop_eq_nil_of_le h]
  rfl

theorem fetch_of_halt_cell {s : State} (h : s.cell? s.pc = some 99#64) : fetch s = .ok (.instr .halt) := by
  rw [fetch_eq_fetchedOf, drop_of_cell?_eq_some h]
  rfl

/-! ## Two steps: into a fault, and into Halted -/

theorem stepCommand_of_step_raise {s : State} {f : Fault} (h : step s = .next (raise s f)) :
    stepCommand s = .ok (.fatal f, raise s f) := by
  simp [stepCommand, h, reported]

theorem step_of_halt_cell {s : State} (hr : s.running) (h : s.cell? s.pc = some 99#64) :
    ∃ t, step s = .next t ∧ t.goodEnd :=
  ⟨_, step_of_fetch_instr hr (fetch_of_halt_cell h), rfl, hr.2⟩

/-! ## The cell an add or multiply writes -/

/-- An add or multiply whose every check passes is one write of the exact result, and `pc` four further. -/
theorem arithmetic_of_valid {op : AluOp} {a b d va vb : Word} {s : State} (ha : s.cell? (operandAddr a) = some va)
    (hb : s.cell? (operandAddr b) = some vb) (hfit : fits (aluExact op va vb)) (hd : s.validAddr (operandAddr d)) :
    ∃ u, memWrite s (operandAddr d) (BitVec.ofInt 64 (aluExact op va vb)) = .ok u ∧
      arithmetic op a b d s = .ok (u.setPc (s.pc + 4)) := by
  rcases arithmetic_cases op a b d s with
    ⟨ha', -⟩ | ⟨_, -, hb', -⟩ | ⟨_, _, ha', hb', hfit', -⟩ | ⟨_, _, -, -, -, hd', -⟩ | ⟨_, _, u, ha', hb', -, hw, e⟩
  case inl => simp [ha] at ha'
  case inr.inl => simp [hb] at hb'
  case inr.inr.inr.inl => exact absurd hd hd'
  all_goals
    obtain rfl := Option.some.inj (ha.symm.trans ha')
    obtain rfl := Option.some.inj (hb.symm.trans hb')
  · exact absurd hfit hfit'
  · exact ⟨u, hw, e⟩

/-- With `dest` the cell the next step fetches first, the next opcode cell is the exact result (spec/20_memory.md R52). -/
theorem exec_instr_writes_next_opcode {op : AluOp} {a b d va vb : Word} {s t : State} (hr : s.running)
    (ha : s.cell? (operandAddr a) = some va) (hb : s.cell? (operandAddr b) = some vb)
    (hnext : operandAddr d = (s.pc : Int) + 4) (hd : s.validAddr (operandAddr d)) (hfit : fits (aluExact op va vb))
    (h : exec (op.instr a b d) s = .next t) :
    t.running ∧ t.cell? t.pc = some (BitVec.ofInt 64 (aluExact op va vb)) := by
  obtain ⟨u, hw, e⟩ := arithmetic_of_valid ha hb hfit hd
  obtain ⟨-, hstate, hfault, -⟩ := memWrite_frame hw
  rw [exec_instr, e] at h
  cases h
  refine ⟨⟨hstate.trans hr.1, hfault.trans hr.2⟩, ?_⟩
  rw [setPc_cell?, setPc_pc, cell?_memWrite hw, if_pos (by rw [hnext]; norm_cast)]

theorem next_step_fetches_result {op : AluOp} {a b d va vb : Word} {s t : State} (hr : s.running)
    (ha : s.cell? (operandAddr a) = some va) (hb : s.cell? (operandAddr b) = some vb)
    (hnext : operandAddr d = (s.pc : Int) + 4) (hd : s.validAddr (operandAddr d)) (hfit : fits (aluExact op va vb))
    (h : exec (op.instr a b d) s = .next t) :
    (∃ r : Word, t.cell? t.pc = some r ∧ r.toInt = aluExact op va vb) ∧
      (aluExact op va vb = 99 → ∃ u, step t = .next u ∧ u.goodEnd) := by
  obtain ⟨hrt, hcell⟩ := exec_instr_writes_next_opcode hr ha hb hnext hd hfit h
  refine ⟨⟨_, hcell, toInt_ofInt_of_fits hfit⟩, fun h99 => step_of_halt_cell hrt ?_⟩
  rw [hcell, h99]
  rfl

/-! ## The host's commands, answered and refused -/

theorem unlessFaulted_of_fault_eq_none {s : State} (h : s.fault = none) (c : Except Refusal (Response × State)) :
    unlessFaulted s c = c := by
  simp [unlessFaulted, h]

theorem unlessFaulted_error (s : State) (r : Refusal) : ∃ r', unlessFaulted s (.error r) = .error r' := by
  cases h : s.fault <;> simp [unlessFaulted, h]

theorem loadCommand_of_le {s : State} {p : List Word} (hfault : s.fault = none)
    (hmax : max s.len p.length ≤ Config.maxLen) :
    loadCommand p s = .ok (.nothing, s.setMem (loadCells s.mem p)) := by
  rw [loadCommand, unlessFaulted_of_fault_eq_none hfault, if_pos hmax]

theorem loadCommand_of_gt {s : State} {p : List Word} (hmax : Config.maxLen < max s.len p.length) :
    ∃ r, loadCommand p s = .error r := by
  rw [loadCommand, if_neg hmax.not_ge]
  exact unlessFaulted_error s _

theorem loadCells_getElem?_of_lt {m : Memory} {p : List Word} {i : Nat} (h : i < p.length) :
    (loadCells m p)[i]? = p[i]? :=
  List.getElem?_append_left h

/-- Growing adds only cells below the new length, and LOAD overwrites all of those (spec/20_memory.md R42). -/
theorem loadCells_getElem?_of_ge {m : Memory} {p : List Word} {i : Nat} (h : p.length ≤ i) :
    (loadCells m p)[i]? = m[i]? := by
  rw [loadCells, List.getElem?_append_right h, List.getElem?_drop, Nat.add_sub_cancel' h, grow]
  rcases lt_or_ge i m.length with hi | hi
  · exact List.getElem?_append_left hi
  · rw [List.getElem?_eq_none hi, List.getElem?_eq_none]
    simp
    omega

theorem loadCells_nil (m : Memory) : loadCells m [] = m := by
  simp [loadCells, grow]

theorem readCommand_of_cell? {s : State} {i : Int} {w : Word} (hfault : s.fault = none) (h : s.cell? i = some w) :
    readCommand i s = .ok (.cell w, s) := by
  rw [readCommand, unlessFaulted_of_fault_eq_none hfault, h]

theorem readCommand_of_not_validAddr {s : State} {i : Int} (h : ¬ s.validAddr i) : ∃ r, readCommand i s = .error r := by
  rw [readCommand, (cell?_eq_none_iff s i).2 h]
  exact unlessFaulted_error s _

/-- Where it is answered, the host's WRITE is the core's write of one cell. -/
theorem writeCommand_of_validAddr {s : State} {i : Int} (v : Word) (hfault : s.fault = none) (h : s.validAddr i) :
    ∃ t, memWrite s i v = .ok t ∧ writeCommand i v s = .ok (.nothing, t) := by
  refine ⟨_, if_pos h, ?_⟩
  rw [writeCommand, unlessFaulted_of_fault_eq_none hfault, if_pos h]

theorem writeCommand_of_not_validAddr {s : State} {i : Int} (v : Word) (h : ¬ s.validAddr i) :
    ∃ r, writeCommand i v s = .error r := by
  rw [writeCommand, if_neg h]
  exact unlessFaulted_error s _

/-! ## The obligations on memory -/

/-- Settles O9: the fetch phase is `fetchedOf` what the decoder reads from `pc` on. -/
theorem fetchAgreesWithTheDecoder : Obligations.FetchAgreesWithTheDecoder := by
  intro s
  rw [fetch_eq_fetchedOf]
  cases decode (s.mem.drop s.pc) <;> rfl

/-- Settles O25: add and mul are `AluOp.instr` of their operation, and the write of either is what the next step fetches. -/
theorem nextFetchSeesTheWrite : Obligations.NextFetchSeesTheWrite :=
  fun _ _ _ _ _ _ _ hr ha hb hnext hd =>
    ⟨next_step_fetches_result (op := .add) hr ha hb hnext hd, next_step_fetches_result (op := .mul) hr ha hb hnext hd⟩

/-- Settles O37: a LOAD within capacity is `loadCells` on the memory, of which every cell is known. -/
theorem loadOverwritesThePrefix : Obligations.LoadOverwritesThePrefix := by
  refine fun s p hfault hmax => ⟨_, loadCommand_of_le hfault hmax, setMem_loadCells_len s p,
    fun i => loadCells_getElem?_of_lt, fun i => loadCells_getElem?_of_ge, rfl, rfl, rfl, ?_⟩
  rintro rfl
  rw [loadCells_nil]
  rfl

/-- Settles O39: READ is the cell, WRITE is the core's write of one cell, and neither answers outside memory. -/
theorem hostReadAndWrite : Obligations.HostReadAndWrite := by
  refine fun s i hfault => ⟨fun hi => ?_, readCommand_of_not_validAddr, fun v => ⟨fun hi => ?_,
    writeCommand_of_not_validAddr v⟩⟩
  · obtain ⟨w, hw⟩ := exists_cell?_of_validAddr hi
    exact ⟨w, by simpa only [State.cell?, if_pos hi.1] using hw, readCommand_of_cell? hfault hw⟩
  · obtain ⟨t, hw, hc⟩ := writeCommand_of_validAddr v hfault hi
    obtain ⟨hpc, hstate, hfault', hlen⟩ := memWrite_frame hw
    refine ⟨t, hc, ?_, fun x hx => ?_, hlen, hpc, hstate, hfault'⟩
    · rw [cell?_memWrite hw, if_pos rfl]
    · rw [cell?_memWrite hw, if_neg hx]

/-- Settles O15: the fetch fails at its first cell, and the step raises that fault. -/
theorem opcodeFetchOutsideMemoryFaults : Obligations.OpcodeFetchOutsideMemoryFaults := by
  intro s hr hlen
  have hstep : step s = .next (raise s (.outOfRange .fetch s.pc)) := step_of_fetch_error hr (fetch_of_len_le_pc hlen)
  exact ⟨_, hstep, stepCommand_of_step_raise hstep, rfl, rfl, rfl, rfl⟩

/-- Settles O38: the capacity is a successor, and a LOAD beyond it is refused whatever the latch holds. -/
theorem loadStopsAtCapacity : Obligations.LoadStopsAtCapacity :=
  ⟨Nat.le_add_left 1 _, fun _ _ => loadCommand_of_gt⟩

/-- Settles O40: STATUS depends on no check. -/
theorem statusAnswersAlways : Obligations.StatusAnswersAlways :=
  fun _ => rfl

end Sys2Proof.Machine

/-! # Encoding: the decoder against the encoder and the opcode table (spec/30_encoding.md)

The decoder is inverted at the opcode cell: what it does with the cells after it is one equation per value of R57, and
opcodes 1 and 2 share format A (`AluOp.instr`). The well-formed runs of cells are then those it reads to the end. -/

namespace Sys2Proof.Machine

/-! ## The decoder by the value of the opcode cell -/

theorem decodeOpcode_eq_none {w : Word} (h1 : w.toInt ≠ 1) (h2 : w.toInt ≠ 2) (h99 : w.toInt ≠ 99) :
    decodeOpcode w = none := by
  simp [decodeOpcode, h1, h2, h99]

theorem decode_cons_formatA {w : Word} (h : w.toInt = 1 ∨ w.toInt = 2) :
    ∃ op : AluOp, ∀ cs, decode (w :: cs) = decodeFormatA op.instr cs := by
  rcases h with h | h <;> obtain rfl := word_eq_of_toInt h
  · exact ⟨.add, fun _ => rfl⟩
  · exact ⟨.mul, fun _ => rfl⟩

theorem decode_cons_halt {w : Word} (h : w.toInt = 99) (cs : List Word) : decode (w :: cs) = .instr .halt cs := by
  obtain rfl := word_eq_of_toInt h
  rfl

theorem decode_cons_illegal {w : Word} (h1 : w.toInt ≠ 1) (h2 : w.toInt ≠ 2) (h99 : w.toInt ≠ 99) (cs : List Word) :
    decode (w :: cs) = .illegal w := by
  simp [decode, decodeOpcode_eq_none h1 h2 h99]

/-! ## Format A by the number of cells at hand -/

theorem decodeFormatA_of_three_le (mk : Word → Word → Word → Instr) {cs : List Word} (h : 3 ≤ cs.length) :
    ∃ a b d, decodeFormatA mk cs = .instr (mk a b d) (cs.drop 3) := by
  rcases decodeFormatA_cases mk cs with ⟨a, b, d, _, rfl, e⟩ | ⟨hlt, -⟩
  · exact ⟨a, b, d, e⟩
  · omega

theorem decodeFormatA_of_lt_three (mk : Word → Word → Word → Instr) {cs : List Word} (h : cs.length < 3) :
    decodeFormatA mk cs = .missing (cs.length + 1) := by
  rcases decodeFormatA_cases mk cs with ⟨_, _, _, _, rfl, -⟩ | ⟨-, e⟩
  · simp only [List.length_cons] at h
    omega
  · rw [e, Nat.add_comm]

theorem decodeFormatA_eq_instr {mk : Word → Word → Word → Instr} {cs rest : List Word} {i : Instr}
    (h : decodeFormatA mk cs = .instr i rest) : ∃ a b d, cs = a :: b :: d :: rest ∧ i = mk a b d := by
  rcases decodeFormatA_cases mk cs with ⟨a, b, d, _, rfl, e⟩ | ⟨-, e⟩ <;> rw [e] at h <;> cases h
  exact ⟨a, b, d, rfl, rfl⟩

/-! ## Decode and encode -/

theorem decode_encode_append (i : Instr) (rest : List Word) : decode (encode i ++ rest) = .instr i rest := by
  cases i <;> rfl

/-- What decodes to an instruction begins with its encoding: the opcode cell is determined by the opcode, and the operand
cells are the operands. -/
theorem eq_encode_append_of_decode {cells rest : List Word} {i : Instr} (h : decode cells = .instr i rest) :
    cells = encode i ++ rest := by
  match cells with
  | [] => cases h
  | w :: cs =>
    cases hw : decodeOpcode w with
    | none => simp [decode, hw] at h
    | some o =>
      obtain rfl := cell_of_decodeOpcode hw
      cases o with
      | add =>
        obtain ⟨a, b, d, rfl, rfl⟩ := decodeFormatA_eq_instr (mk := .add) h
        rfl
      | mul =>
        obtain ⟨a, b, d, rfl, rfl⟩ := decodeFormatA_eq_instr (mk := .mul) h
        rfl
      | halt =>
        cases h
        rfl

/-! ## Well-formed runs of cells -/

theorem instr_wf (i : Instr) : i.wf = true := by
  cases i <;> rfl

theorem encodeShape (i : Instr) : Laws.EncodeShape.Statement i :=
  match i with
  | .add a b d => Laws.EncodeShape.add a b d
  | .mul a b d => Laws.EncodeShape.mul a b d
  | .halt => Laws.EncodeShape.halt

theorem cellsWf_cons {w : Word} {cs : List Word} (h : cellsWf (w :: cs) = true) :
    ((w.toInt = 1 ∨ w.toInt = 2) ∧ cs.length = 3) ∨ (w.toInt = 99 ∧ cs = []) := by
  simp only [cellsWf, legalOpcode, operandCells, Bool.and_eq_true, Bool.or_eq_true, decide_eq_true_eq,
    beq_iff_eq] at h
  obtain ⟨hop | hop, hlen⟩ := h
  · exact .inl ⟨hop, by rwa [if_neg (by omega)] at hlen⟩
  · exact .inr ⟨hop, by rwa [if_pos hop, List.length_eq_zero_iff] at hlen⟩

theorem decode_of_cellsWf {cells : List Word} (h : cellsWf cells = true) : ∃ i, decode cells = .instr i [] := by
  match cells with
  | [] => cases h
  | w :: cs =>
    rcases cellsWf_cons h with ⟨hop, hlen⟩ | ⟨hop, rfl⟩
    · obtain ⟨op, hdec⟩ := decode_cons_formatA hop
      obtain ⟨a, b, d, e⟩ := decodeFormatA_of_three_le op.instr hlen.ge
      rw [List.drop_eq_nil_of_le hlen.le] at e
      exact ⟨op.instr a b d, (hdec cs).trans e⟩
    · exact ⟨.halt, decode_cons_halt hop []⟩

/-! ## The opcode table -/

/-- Every row tests the whole cell against its opcode's own cell (spec/30_encoding.md R57, R62). -/
theorem opcodeTable_rows : ∀ r ∈ opcodeTable, r.mask = BitVec.allOnes 64 ∧ r.matchBits = r.opcode.cell := by
  decide

theorem eq_cell_of_row_selects {r : OpcodeRow} {c : Word} (hr : r ∈ opcodeTable) (h : c &&& r.mask = r.matchBits) :
    c = r.opcode.cell := by
  obtain ⟨hmask, hmatch⟩ := opcodeTable_rows r hr
  rwa [hmask, BitVec.and_allOnes, hmatch] at h

theorem tableDecode_cell (o : Opcode) : tableDecode o.cell = some o := by
  cases o <;> decide

theorem tableDecode_eq_none {c : Word} (h : decodeOpcode c = none) : tableDecode c = none := by
  refine Option.map_eq_none_iff.2 (List.find?_eq_none.2 fun r hr hsel => ?_)
  rw [eq_cell_of_row_selects hr (beq_iff_eq.1 hsel), decodeOpcode_cell] at h
  cases h

/-! ## An illegal opcode, stepped and run -/

theorem fetch_of_illegal_cell {s : State} {v : Word} (hv : s.cell? s.pc = some v) (h1 : v.toInt ≠ 1)
    (h2 : v.toInt ≠ 2) (h99 : v.toInt ≠ 99) : fetch s = .ok (.illegal v) := by
  rw [fetch_eq_fetchedOf, drop_of_cell?_eq_some hv, decode_cons_illegal h1 h2 h99]
  rfl

theorem stepCommand_of_fetch_illegal {s : State} {v : Word} (hr : s.running) (h : fetch s = .ok (.illegal v)) :
    stepCommand s = .ok (.illegalOpcode v, skipIllegal s) := by
  simp [stepCommand, step_of_fetch_illegal hr h, reported, illegalAhead, h, hr.1, hr.2]

/-- A RUN makes at least one STEP, and ends at an illegal opcode (spec/40_fetch_decode_execute.md R74). -/
theorem runCommand_of_stepCommand_illegal {s t : State} {v : Word} (h : stepCommand s = .ok (.illegalOpcode v, t)) :
    runCommand s = .ok (.illegalOpcode v, t) := by
  simp [runCommand, runBound, runLoop, h]

/-! ## The obligations on encoding -/

/-- Settles O6: each direction is one lemma over the opcode cell; every instruction is well formed. -/
theorem decodeAndEncodeAgree : Obligations.DecodeAndEncodeAgree := by
  refine fun i cells rest _ => ⟨eq_encode_append_of_decode, ?_⟩
  rintro rfl
  exact decode_encode_append i rest

/-- Settles O4: a row is selected by its opcode's cell and by no other, which is how the decoder chooses. -/
theorem maskAndMatchIsTheDecoder : Obligations.MaskAndMatchIsTheDecoder := by
  intro c
  cases hc : decodeOpcode c with
  | none => exact tableDecode_eq_none hc
  | some o =>
    rw [cell_of_decodeOpcode hc]
    exact tableDecode_cell o

/-- Settles O5, by the value of the opcode cell, and for opcodes 1 and 2 by the number of cells after it. -/
theorem lengthComesFromTheOpcode : Obligations.LengthComesFromTheOpcode := by
  refine fun w rest => ⟨fun hop => ?_, fun hop => ⟨decode_cons_halt hop rest, rfl⟩,
    fun h1 h2 h99 => decode_cons_illegal h1 h2 h99 rest⟩
  obtain ⟨op, hdec⟩ := decode_cons_formatA hop
  rw [hdec]
  refine ⟨fun hlen => ?_, decodeFormatA_of_lt_three op.instr⟩
  obtain ⟨a, b, d, e⟩ := decodeFormatA_of_three_le op.instr hlen
  exact ⟨op.instr a b d, e, instr_opcode_length op a b d⟩

/-- Settles O7: a well-formed run is one the decoder reads to its end, so it is the encoding of what it decodes to. -/
theorem wellFormedCellsAreTheEncodings : Obligations.WellFormedCellsAreTheEncodings := by
  refine fun cells => ⟨fun h => ?_, ?_⟩
  · obtain ⟨i, hi⟩ := decode_of_cellsWf h
    exact ⟨i, instr_wf i, by rw [eq_encode_append_of_decode hi, List.append_nil]⟩
  · rintro ⟨i, -, rfl⟩
    obtain ⟨hwf, -, -⟩ := encodeShape i
    exact hwf

/-- Settles O14: the fetch ends at the opcode cell, STEP skips that cell alone, and RUN ends at its first STEP. -/
theorem illegalOpcodeIsReportedAndSkipped : Obligations.IllegalOpcodeIsReportedAndSkipped := by
  intro s v hr hv h1 h2 h99
  have hfetch : fetch s = .ok (.illegal v) := fetch_of_illegal_cell hv h1 h2 h99
  have hcommand := stepCommand_of_fetch_illegal hr hfetch
  exact ⟨skipIllegal s, step_of_fetch_illegal hr hfetch, hcommand, runCommand_of_stepCommand_illegal hcommand,
    rfl, rfl, hr.1, hr.2⟩

/-- Settles O8: three of the runs are encodings, and three begin with an illegal opcode. -/
theorem wordsOfTheSpecDecode : Obligations.WordsOfTheSpecDecode :=
  ⟨decode_encode_append (.add 5 6 0) [], decode_encode_append (.mul 3 0 3) [], decode_encode_append .halt [],
    decode_cons_illegal (by decide) (by decide) (by decide) _,
    decode_cons_illegal (by decide) (by decide) (by decide) _,
    decode_cons_illegal (by decide) (by decide) (by decide) _⟩

end Sys2Proof.Machine

/-! # Fetch, decode, execute: STEP with its outcome, and RUN (spec/40_fetch_decode_execute.md)

STEP's outcome is read once beside the cases of a step, as `StepReport`: the rows of R69, and the STEPs that do nothing. A
STEP that succeeds and stays Active lowers `runBound` by exactly 1, so RUN unrolls into itself. The spec's own pseudocode
(`Spec.step`) is held against the same cases; opcodes 1 and 2 share `arithmetic` there too. -/

namespace Sys2Proof.Machine

/-! ## The decoder's four cases -/

theorem decodeOpcode_eq_some_iff (w : Word) (o : Opcode) : decodeOpcode w = some o ↔ w.toInt = o.cell.toInt := by
  rw [BitVec.toInt_inj]
  refine ⟨cell_of_decodeOpcode, ?_⟩
  rintro rfl
  exact decodeOpcode_cell o

theorem decodeOpcode_eq_none_iff (w : Word) :
    decodeOpcode w = none ↔ w.toInt ≠ 1 ∧ w.toInt ≠ 2 ∧ w.toInt ≠ 99 := by
  refine ⟨fun h => ?_, fun ⟨h1, h2, h99⟩ => decodeOpcode_eq_none h1 h2 h99⟩
  have hne (o : Opcode) : w.toInt ≠ o.cell.toInt := by
    simp [← decodeOpcode_eq_some_iff, h]
  exact ⟨hne .add, hne .mul, hne .halt⟩

/-! ## What a STEP reports -/

theorem stepCommand_of_fault {s : State} {f : Fault} (h : s.fault = some f) : stepCommand s = .ok (.fatal f, s) := by
  simp [stepCommand, step_of_fault h]

theorem stepCommand_of_goodEnd {s : State} (h : s.goodEnd) : stepCommand s = .ok (.ok, s) := by
  simp [stepCommand, step_of_goodEnd h, reported, illegalAhead, h.1, h.2]

theorem stepCommand_of_fetch_instr {s t : State} {i : Instr} (hf : fetch s = .ok (.instr i)) (h : step s = .next t)
    (hfault : t.fault = none) : stepCommand s = .ok (.ok, t) := by
  simp [stepCommand, h, reported, illegalAhead, hf, hfault]

theorem stepCommand_of_fetch_error {s : State} {f : Fault} (hr : s.running) (h : fetch s = .error f) :
    stepCommand s = .ok (.fatal f, raise s f) :=
  stepCommand_of_step_raise (step_of_fetch_error hr h)

theorem stepCommand_of_fetch_halt {s : State} (hr : s.running) (h : fetch s = .ok (.instr .halt)) :
    stepCommand s = .ok (.ok, (s.setPc (s.pc + 1)).setState .halted) :=
  stepCommand_of_fetch_instr h (step_of_fetch_instr hr h) hr.2

/-- What a STEP reports of an instruction's effect, with the state it leaves: what `finish` is to `step`. -/
def effectReport (s : State) : Except Fault State → StepOutcome × State
  | .ok t => (.ok, t)
  | .error f => (.fatal f, raise s f)

theorem stepCommand_of_fetch_arithmetic {op : AluOp} {a b d : Word} {s : State} (hr : s.running)
    (hf : fetch s = .ok (.instr (op.instr a b d))) :
    stepCommand s = .ok (effectReport s (arithmetic op a b d s)) := by
  have hstep : step s = finish s (arithmetic op a b d s) := by rw [step_of_fetch_instr hr hf, exec_instr]
  cases he : arithmetic op a b d s with
  | ok t =>
    obtain ⟨-, -, hfault, -⟩ := arithmetic_ok he
    rw [he] at hstep
    exact stepCommand_of_fetch_instr hf hstep (hfault.trans hr.2)
  | error f =>
    rw [he] at hstep
    exact stepCommand_of_step_raise hstep

/-- The outcomes of a STEP from `s`, each with the state it leaves: `StepCase` as the host sees it. -/
inductive StepReport (s : State) : StepOutcome → State → Prop where
  | latched {f} (hfault : s.fault = some f) : StepReport s (.fatal f) s
  | halted (hend : s.goodEnd) : StepReport s .ok s
  | raised {f} (hr : s.running) : StepReport s (.fatal f) (raise s f)
  | illegal {v} (hr : s.running) (hf : fetch s = .ok (.illegal v)) : StepReport s (.illegalOpcode v) (skipIllegal s)
  | halt (hr : s.running) (hf : fetch s = .ok (.instr .halt)) :
      StepReport s .ok ((s.setPc (s.pc + 1)).setState .halted)
  | completed {op a b d t} (hr : s.running) (hf : fetch s = .ok (.instr (op.instr a b d)))
      (he : arithmetic op a b d s = .ok t) : StepReport s .ok t

theorem stepReport (s : State) : ∃ o t, stepCommand s = .ok (o, t) ∧ StepReport s o t := by
  generalize h : step s = r
  cases stepCase_of_eq h with
  | latched hfault => exact ⟨_, _, stepCommand_of_fault hfault, .latched hfault⟩
  | halted hend => exact ⟨_, _, stepCommand_of_goodEnd hend, .halted hend⟩
  | fetchFault hr _ | arithmeticFault hr _ _ => exact ⟨_, _, stepCommand_of_step_raise h, .raised hr⟩
  | illegal hr hf => exact ⟨_, _, stepCommand_of_fetch_illegal hr hf, .illegal hr hf⟩
  | halt hr hf => exact ⟨_, _, stepCommand_of_fetch_halt hr hf, .halt hr hf⟩
  | completed hr hf he =>
    obtain ⟨-, -, hfault, -⟩ := arithmetic_ok he
    exact ⟨_, _, stepCommand_of_fetch_instr hf h (hfault.trans hr.2), .completed hr hf he⟩

theorem stepReport_of_ok {s t : State} {o : StepOutcome} (h : stepCommand s = .ok (o, t)) : StepReport s o t := by
  obtain ⟨o', t', h', hreport⟩ := stepReport s
  cases h.symm.trans h'
  exact hreport

/-- What a STEP that completes an add or multiply leaves (the first row of R69). -/
theorem stepCommand_ok_of_fetch_arithmetic {op : AluOp} {a b d : Word} {s t : State} (hr : s.running)
    (hf : fetch s = .ok (.instr (op.instr a b d))) (h : stepCommand s = .ok (.ok, t)) :
    t.pc = s.pc + 4 ∧ t.state = .active ∧ t.fault = none ∧ t.len = s.len ∧
      ∀ x : Int, x ≠ d.toInt → t.cell? x = s.cell? x := by
  rw [stepCommand_of_fetch_arithmetic hr hf] at h
  cases he : arithmetic op a b d s with
  | error f => simp [he, effectReport] at h
  | ok u =>
    rw [he] at h
    cases h
    obtain ⟨hpc, hstate, hfault, hlen, hcells⟩ := arithmetic_ok he
    exact ⟨hpc, hstate.trans hr.1, hfault.trans hr.2, hlen, hcells⟩

/-! ## RUN -/

/-- Only a completed add or multiply succeeds and leaves the machine Active. -/
theorem stepCommand_ok_active {s t : State} (h : stepCommand s = .ok (.ok, t)) (ha : t.state = .active) :
    t.pc = s.pc + 4 ∧ s.pc + 3 < s.len ∧ t.len = s.len := by
  cases stepReport_of_ok h with
  | halted hend => simp [hend.1] at ha
  | halt => simp at ha
  | completed hr hf he =>
    obtain ⟨hpc, -, -, hlen, -⟩ := arithmetic_ok he
    have hfetched := fetch_instr_le_len hf
    rw [instr_opcode_length] at hfetched
    exact ⟨hpc, hfetched, hlen⟩

/-- The bound of R75 counts down by 1 at each STEP that RUN goes on after. -/
theorem runBound_of_ok_active {s t : State} (h : stepCommand s = .ok (.ok, t)) (ha : t.state = .active) :
    runBound s = runBound t + 1 := by
  obtain ⟨hpc, hlt, hlen⟩ := stepCommand_ok_active h ha
  simp only [runBound, hpc, hlen]
  omega

theorem runCommand_of_ok_active {s t : State} (h : stepCommand s = .ok (.ok, t)) (ha : t.state = .active) :
    runCommand s = runCommand t := by
  simp [runCommand, runBound_of_ok_active h ha, runLoop, h, ha]

theorem runCommand_of_ok_halted {s t : State} (h : stepCommand s = .ok (.ok, t)) (hh : t.state = .halted) :
    runCommand s = .ok (.ok, t) := by
  simp [runCommand, runBound, runLoop, h, hh]

theorem runCommand_of_stepCommand_fatal {s t : State} {f : Fault} (h : stepCommand s = .ok (.fatal f, t)) :
    runCommand s = .ok (.fatal f, t) := by
  simp [runCommand, runBound, runLoop, h]

theorem runCommand_ends (s : State) : ∃ o t, runCommand s = .ok (o, t) ∧ (o = .ok → t.state = .halted) := by
  induction hn : runBound s generalizing s with
  | zero => cases hn
  | succ n ih =>
    obtain ⟨o, t, hstep, -⟩ := stepReport s
    cases o with
    | illegalOpcode v => exact ⟨_, _, runCommand_of_stepCommand_illegal hstep, fun h => by cases h⟩
    | fatal f => exact ⟨_, _, runCommand_of_stepCommand_fatal hstep, fun h => by cases h⟩
    | ok =>
      cases hstate : t.state with
      | halted => exact ⟨_, _, runCommand_of_ok_halted hstep hstate, fun _ => hstate⟩
      | active =>
        rw [runCommand_of_ok_active hstep hstate]
        rw [runBound_of_ok_active hstep hstate] at hn
        exact ih t (Nat.succ.inj hn)

/-! ## The spec's pseudocode against the cases of a step -/

theorem cellAt_eq_cell? (s : State) (a : Int) : Spec.cellAt s a = s.cell? a := by
  by_cases ha : s.validAddr a
  · exact (if_pos ha).trans (if_pos ha.1).symm
  · exact (if_neg ha).trans ((cell?_eq_none_iff s a).2 ha).symm

theorem fits_iff_pow (v : Int) : fits v ↔ -(2 : Int) ^ 63 ≤ v ∧ v ≤ (2 : Int) ^ 63 - 1 := by
  norm_num [fits, Word.minInt, Word.maxInt]

theorem fatal_eq_raise (s : State) (f : Fault) : Spec.fatal s f = (.fatal f, raise s f) := rfl

theorem specStep_of_fault {s : State} {f : Fault} (h : s.fault = some f) : Spec.step s = (.fatal f, s) := by
  simp [Spec.step, h]

theorem specStep_of_goodEnd {s : State} (h : s.goodEnd) : Spec.step s = (.ok, s) := by
  simp [Spec.step, h.1, h.2]

theorem specStep_of_no_cell {s : State} (hr : s.running) (h : s.cell? s.pc = none) :
    Spec.step s = (.fatal (.outOfRange .fetch s.pc), raise s (.outOfRange .fetch s.pc)) := by
  simp [Spec.step, hr.1, hr.2, cellAt_eq_cell?, h, fatal_eq_raise]

/-- The pseudocode's choice by the value of the opcode cell. -/
theorem specStep_of_cell {s : State} {w : Word} (hr : s.running) (hw : s.cell? s.pc = some w) :
    Spec.step s =
      if w.toInt = 99 then (.ok, (s.setPc (s.pc + 1)).setState .halted)
      else if w.toInt = 1 ∨ w.toInt = 2 then Spec.arithmeticLines s w
      else (.illegalOpcode w, skipIllegal s) := by
  simp [Spec.step, hr.1, hr.2, cellAt_eq_cell?, hw, skipIllegal, State.setPc, State.setState]

section ArithmeticLines

variable {op : AluOp} {s : State} {w : Word}

/-- The pseudocode chooses the operation by comparing the opcode cell with 1. -/
theorem ite_aluOp_of_code (hw : w.toInt = op.code) : (if w.toInt = 1 then AluOp.add else .mul) = op := by
  cases op <;> simp [hw, AluOp.code]

theorem ite_result_of_code (hw : w.toInt = op.code) (va vb : Word) :
    (if w.toInt = 1 then va.toInt + vb.toInt else va.toInt * vb.toInt) = aluExact op va vb := by
  cases op <;> simp [hw, AluOp.code, aluExact]

/-- Lines (2) to (4) of R68, where an operand cell is missing. -/
theorem arithmeticLines_of_missing {k : Nat} (hk1 : 1 ≤ k) (hk3 : k ≤ 3)
    (hnone : s.cell? ((s.pc + k : Nat) : Int) = none)
    (hbefore : ∀ j, 1 ≤ j → j < k → (s.cell? ((s.pc + j : Nat) : Int)).isSome) :
    Spec.arithmeticLines s w = Spec.fatal s (.outOfRange .fetch ((s.pc + k : Nat) : Int)) := by
  have hcell (j : Nat) (h1 : 1 ≤ j) (hj : j < k) : ∃ c, s.cell? ((s.pc + j : Nat) : Int) = some c :=
    Option.isSome_iff_exists.1 (hbefore j h1 hj)
  obtain rfl | rfl | rfl : k = 1 ∨ k = 2 ∨ k = 3 := by omega
  · push_cast at hnone ⊢
    simp [Spec.arithmeticLines, cellAt_eq_cell?, hnone]
  · obtain ⟨a, ha⟩ := hcell 1 le_rfl (by decide)
    push_cast at hnone ha ⊢
    simp [Spec.arithmeticLines, cellAt_eq_cell?, hnone, ha]
  · obtain ⟨a, ha⟩ := hcell 1 le_rfl (by decide)
    obtain ⟨b, hb⟩ := hcell 2 (by decide) (by decide)
    push_cast at hnone ha hb ⊢
    simp [Spec.arithmeticLines, cellAt_eq_cell?, hnone, ha, hb]

/-- Lines (5) to (8) of R68 are the effect that add and multiply share, check by check. -/
theorem arithmeticLines_of_operands (hw : w.toInt = op.code) {a b d : Word}
    (ha : s.cell? ((s.pc + 1 : Nat) : Int) = some a) (hb : s.cell? ((s.pc + 2 : Nat) : Int) = some b)
    (hd : s.cell? ((s.pc + 3 : Nat) : Int) = some d) :
    Spec.arithmeticLines s w = effectReport s (arithmetic op a b d s) := by
  push_cast at ha hb hd
  simp only [Spec.arithmeticLines, cellAt_eq_cell?, ha, hb, hd, ite_aluOp_of_code hw, ite_result_of_code hw,
    ← fits_iff_pow, fatal_eq_raise]
  have hcases := arithmetic_cases op a b d s
  simp only [operandAddr] at hcases
  rcases hcases with ⟨hva, e⟩ | ⟨va, hva, hvb, e⟩ | ⟨va, vb, hva, hvb, hfit, e⟩ |
    ⟨va, vb, hva, hvb, hfit, hdest, e⟩ | ⟨va, vb, t, hva, hvb, hfit, hwrite, e⟩ <;> rw [e]
  · simp [hva, effectReport]
  · simp [hva, hvb, effectReport]
  · simp [hva, hvb, hfit, effectReport]
  · simp only [hva, hvb]
    exact (if_neg (not_not.2 hfit)).trans (if_pos hdest)
  · simp only [hva, hvb]
    rcases memWrite_cases s d.toInt (BitVec.ofInt 64 (aluExact op va vb)) with ⟨hdest, hw'⟩ | ⟨-, hw'⟩ <;>
      cases hwrite.symm.trans hw'
    exact (if_neg (not_not.2 hfit)).trans (if_neg (not_not.2 hdest))

theorem stepCommand_eq_arithmeticLines (hr : s.running) (hw : w.toInt = op.code)
    (hf : fetch s = fetchFormatA op.instr s) : stepCommand s = .ok (Spec.arithmeticLines s w) := by
  rcases fetchFormatA_cases op.instr s with ⟨a, b, d, ha, hb, hd, e⟩ | ⟨k, hk1, hk3, hnone, hbefore, e⟩
  · rw [stepCommand_of_fetch_arithmetic hr (hf.trans e), arithmeticLines_of_operands hw ha hb hd]
  · rw [stepCommand_of_fetch_error hr (hf.trans e), arithmeticLines_of_missing hk1 hk3 hnone hbefore, fatal_eq_raise]

end ArithmeticLines

theorem stepCommand_eq_specStep {s : State} (hr : s.running) : stepCommand s = .ok (Spec.step s) := by
  rcases fetch_cases s with
    ⟨hnone, e⟩ | ⟨w, hw, hdec, e⟩ | ⟨w, hw, hdec, e⟩ | ⟨w, hw, hdec, e⟩ | ⟨w, hw, hdec, e⟩
  · rw [stepCommand_of_fetch_error hr e, specStep_of_no_cell hr hnone]
  all_goals rw [specStep_of_cell hr hw]
  · obtain ⟨h1, h2, h99⟩ := (decodeOpcode_eq_none_iff w).1 hdec
    rw [stepCommand_of_fetch_illegal hr e, if_neg h99, if_neg (not_or.2 ⟨h1, h2⟩)]
  · have h99 : w.toInt = 99 := (decodeOpcode_eq_some_iff w .halt).1 hdec
    rw [stepCommand_of_fetch_halt hr e, if_pos h99]
  · have h1 : w.toInt = 1 := (decodeOpcode_eq_some_iff w .add).1 hdec
    rw [if_neg (by omega), if_pos (.inl h1)]
    exact stepCommand_eq_arithmeticLines (op := .add) hr h1 e
  · have h2 : w.toInt = 2 := (decodeOpcode_eq_some_iff w .mul).1 hdec
    rw [if_neg (by omega), if_pos (.inr h2)]
    exact stepCommand_eq_arithmeticLines (op := .mul) hr h2 e

/-! ## The obligations on fetch, decode and execute -/

/-- Settles O11: a set latch and a Halted machine are the pseudocode's first two lines; a running one is compared by the
cases of its fetch. -/
theorem stepIsTheStepOfTheSpec : Obligations.StepIsTheStepOfTheSpec := by
  intro s
  cases hfault : s.fault with
  | some f => rw [stepCommand_of_fault hfault, specStep_of_fault hfault]
  | none =>
    cases hstate : s.state with
    | halted => rw [stepCommand_of_goodEnd ⟨hstate, hfault⟩, specStep_of_goodEnd ⟨hstate, hfault⟩]
    | active => exact stepCommand_eq_specStep ⟨hstate, hfault⟩

/-- Settles O13: a completed instruction and halt are read from what was fetched, the two failures from what is
reported. -/
theorem stateAfterEachOutcome : Obligations.StateAfterEachOutcome := by
  refine fun s t o hr h => ⟨fun a b d hf ho => ?_, fun hf => ?_, fun v ho => ?_, fun f ho => ?_⟩
  · subst ho
    rcases hf with hf | hf
    · exact stepCommand_ok_of_fetch_arithmetic (op := .add) hr hf h
    · exact stepCommand_ok_of_fetch_arithmetic (op := .mul) hr hf h
  · cases (stepCommand_of_fetch_halt hr hf).symm.trans h
    exact ⟨rfl, rfl, rfl, rfl, hr.2⟩
  · subst ho
    cases stepReport_of_ok h with
    | illegal => exact ⟨rfl, hr.1, rfl, hr.2⟩
  · subst ho
    cases stepReport_of_ok h with
    | latched hfault => simp [hr.2] at hfault
    | raised => exact ⟨rfl, hr.1, rfl, rfl⟩

/-- Settles O35: where the loop goes on, the bound of the next state is what is left of the bound. -/
theorem runIsItsLoop : Obligations.RunIsItsLoop := by
  refine ⟨fun s => ?_, fun s hend => runCommand_of_ok_halted (stepCommand_of_goodEnd hend) hend.1,
    fun s f hfault => runCommand_of_stepCommand_fatal (stepCommand_of_fault hfault)⟩
  obtain ⟨o, t, hstep, -⟩ := stepReport s
  cases o with
  | illegalOpcode v => rw [hstep, runCommand_of_stepCommand_illegal hstep]
  | fatal f => rw [hstep, runCommand_of_stepCommand_fatal hstep]
  | ok =>
    cases hstate : t.state with
    | halted => rw [runCommand_of_ok_halted hstep hstate, hstep]; simp [hstate]
    | active => rw [runCommand_of_ok_active hstep hstate, hstep]; simp [hstate]

/-- Settles O36, by induction on the bound; `runCommand` is `runLoop` at that bound. -/
theorem runAlwaysEnds : Obligations.RunAlwaysEnds := by
  refine ⟨fun s => ?_, fun _ _ => stepCommand_ok_active⟩
  obtain ⟨o, t, hrun, hhalted⟩ := runCommand_ends s
  exact ⟨o, t, hrun, hrun, hhalted⟩

/-- Settles O3: an opcode is decoded exactly from its own cell, and halt and an illegal opcode from the cell at `pc`
alone. -/
theorem decoderHasFourCases : Obligations.DecoderHasFourCases := by
  refine ⟨fun w => ⟨decodeOpcode_eq_some_iff w .add, decodeOpcode_eq_some_iff w .mul,
    decodeOpcode_eq_some_iff w .halt, decodeOpcode_eq_none_iff w⟩,
    fun s w hw => ⟨fun h99 => ?_, fetch_of_illegal_cell hw⟩⟩
  rw [word_eq_of_toInt h99] at hw
  exact fetch_of_halt_cell hw

/-- Settles O10: the fetch phase gives what the decoder reads, and a running step is `exec` of what was fetched. -/
theorem stepRunsTheDecodedInstruction : Obligations.StepRunsTheDecodedInstruction := by
  intro s i rest hr _ hdec
  refine step_of_fetch_instr hr ?_
  rw [fetch_eq_fetchedOf, hdec]
  rfl

/-- Settles O12: the step stays put, and reports what the state it leaves records. -/
theorem haltedStepDoesNothing : Obligations.HaltedStepDoesNothing :=
  fun _ hend => ⟨step_of_goodEnd hend, stepCommand_of_goodEnd hend⟩

end Sys2Proof.Machine

/-! # Arithmetic: the ALU, and add and multiply as instructions and as STEPs (spec/41_arithmetic.md)

The ALU is described by its exact result, so its laws are those of the integers. With both sources readable, add and
multiply are the ALU followed by `writeResult`, and read their sources through the ALU alone. Every fact is stated once
for `AluOp`, and add and mul are its two cases. -/

namespace Sys2Proof.Machine

/-! ## The ALU -/

theorem alu_of_not_fits {op : AluOp} {x y : Word} (h : ¬ fits (aluExact op x y)) :
    alu op x y = .error (.overflow op x y) :=
  if_neg h

theorem alu_of_fits {op : AluOp} {x y : Word} (h : fits (aluExact op x y)) :
    ∃ r, alu op x y = .ok r ∧ r.toInt = aluExact op x y :=
  ⟨_, if_pos h, toInt_ofInt_of_fits h⟩

/-- The ALU never answers a wrapped value (spec/41_arithmetic.md R79). -/
theorem toInt_of_alu_ok {op : AluOp} {x y r : Word} (h : alu op x y = .ok r) : r.toInt = aluExact op x y := by
  rcases alu_cases op x y with ⟨hfit, e⟩ | ⟨-, e⟩ <;> cases h.symm.trans e
  exact toInt_ofInt_of_fits hfit

/-- Every exact result that is the value of a `Word` is answered. -/
theorem alu_eq_ok_of_exact {op : AluOp} {x y r : Word} (h : aluExact op x y = r.toInt) : alu op x y = .ok r := by
  obtain ⟨r', e, hr'⟩ := alu_of_fits (h ▸ fits_toInt r)
  rw [e, BitVec.toInt_inj.1 (hr'.trans h)]

theorem aluExact_comm (op : AluOp) (x y : Word) : aluExact op x y = aluExact op y x := by
  cases op with
  | add => exact Int.add_comm _ _
  | mul => exact Int.mul_comm _ _

/-- Only an Overflow, which records its operands in order, tells the two orders apart. -/
theorem alu_comm {op : AluOp} {x y : Word} (h : fits (aluExact op x y)) : alu op x y = alu op y x := by
  obtain ⟨r, e, hr⟩ := alu_of_fits h
  rw [e, alu_eq_ok_of_exact ((aluExact_comm op y x).trans hr.symm)]

/-! ## The effect of add and multiply, check by check -/

/-- What follows the ALU in `arithmetic`: the one write, and `pc` four further. -/
def writeResult (s : State) (d r : Word) : Except Fault State := do
  let t ← writeDest s d r
  pure (t.setPc (s.pc + 4))

theorem writeResult_of_not_validAddr {s : State} {d : Word} (r : Word) (h : ¬ s.validAddr (operandAddr d)) :
    writeResult s d r = .error (.outOfRange .write (operandAddr d)) := by
  rw [writeResult, writeDest, memWrite, if_neg h]
  rfl

section Effect

variable {op : AluOp} {a b va vb : Word} {s : State}

theorem arithmetic_of_no_srcA (b d : Word) (ha : s.cell? (operandAddr a) = none) :
    arithmetic op a b d s = .error (.outOfRange .read (operandAddr a)) := by
  rw [arithmetic, readSource, memRead_of_none _ ha]
  rfl

theorem arithmetic_of_no_srcB (d : Word) (ha : s.cell? (operandAddr a) = some va)
    (hb : s.cell? (operandAddr b) = none) :
    arithmetic op a b d s = .error (.outOfRange .read (operandAddr b)) := by
  rw [arithmetic, readSource, readSource, memRead_of_cell? _ ha, memRead_of_none _ hb]
  rfl

theorem arithmetic_of_sources (d : Word) (ha : s.cell? (operandAddr a) = some va)
    (hb : s.cell? (operandAddr b) = some vb) : arithmetic op a b d s = alu op va vb >>= writeResult s d := by
  rw [arithmetic, readSource, readSource, memRead_of_cell? _ ha, memRead_of_cell? _ hb]
  rfl

theorem arithmetic_of_not_fits (d : Word) (ha : s.cell? (operandAddr a) = some va)
    (hb : s.cell? (operandAddr b) = some vb) (hfit : ¬ fits (aluExact op va vb)) :
    arithmetic op a b d s = .error (.overflow op va vb) := by
  rw [arithmetic_of_sources d ha hb, alu_of_not_fits hfit]
  rfl

theorem arithmetic_of_no_dest {d : Word} (ha : s.cell? (operandAddr a) = some va)
    (hb : s.cell? (operandAddr b) = some vb) (hfit : fits (aluExact op va vb))
    (hd : ¬ s.validAddr (operandAddr d)) :
    arithmetic op a b d s = .error (.outOfRange .write (operandAddr d)) := by
  obtain ⟨r, e, -⟩ := alu_of_fits hfit
  rw [arithmetic_of_sources d ha hb, e]
  exact writeResult_of_not_validAddr r hd

/-- `arithmetic_of_valid` with the state it leaves written out. -/
theorem arithmetic_sets_dest {d : Word} (ha : s.cell? (operandAddr a) = some va)
    (hb : s.cell? (operandAddr b) = some vb) (hfit : fits (aluExact op va vb)) (hd : s.validAddr (operandAddr d)) :
    ∃ r : Word, r.toInt = aluExact op va vb ∧
      arithmetic op a b d s = .ok { s with mem := s.mem.set (operandAddr d).toNat r, pc := s.pc + 4 } := by
  obtain ⟨u, hw, e⟩ := arithmetic_of_valid ha hb hfit hd
  rw [memWrite, if_pos hd] at hw
  cases hw
  exact ⟨_, toInt_ofInt_of_fits hfit, e⟩

theorem arithmetic_swap (d : Word) (ha : s.cell? (operandAddr a) = some va)
    (hb : s.cell? (operandAddr b) = some vb) (hfit : fits (aluExact op va vb)) :
    arithmetic op a b d s = arithmetic op b a d s := by
  rw [arithmetic_of_sources d ha hb, arithmetic_of_sources d hb ha, alu_comm hfit]

/-! ## add and multiply as instructions -/

theorem exec_instr_completes {d : Word} (ha : s.cell? (operandAddr a) = some va)
    (hb : s.cell? (operandAddr b) = some vb) (hfit : fits (aluExact op va vb)) (hd : s.validAddr (operandAddr d)) :
    ∃ t, exec (op.instr a b d) s = .next t ∧
      (∃ r, t.cell? (operandAddr d) = some r ∧ r.toInt = aluExact op va vb) ∧
      (∀ x : Int, x ≠ operandAddr d → t.cell? x = s.cell? x) ∧
      t.pc = s.pc + 4 ∧ t.len = s.len ∧ t.state = s.state ∧ t.fault = s.fault := by
  obtain ⟨u, hw, e⟩ := arithmetic_of_valid ha hb hfit hd
  obtain ⟨hpc, hstate, hfault, hlen, hcells⟩ := arithmetic_ok e
  refine ⟨u.setPc (s.pc + 4), ?_, ⟨_, ?_, toInt_ofInt_of_fits hfit⟩, hcells, hpc, hlen, hstate, hfault⟩
  · rw [exec_instr, e]
    rfl
  · rw [setPc_cell?, cell?_memWrite hw, if_pos rfl]

theorem exec_instr_of_not_fits (d : Word) (ha : s.cell? (operandAddr a) = some va)
    (hb : s.cell? (operandAddr b) = some vb) (hfit : ¬ fits (aluExact op va vb)) :
    exec (op.instr a b d) s = .next (raise s (.overflow op va vb)) := by
  rw [exec_instr, arithmetic_of_not_fits d ha hb hfit]
  rfl

theorem exec_instr_swap (d : Word) (ha : s.cell? (operandAddr a) = some va)
    (hb : s.cell? (operandAddr b) = some vb) (hfit : fits (aluExact op va vb)) :
    exec (op.instr a b d) s = exec (op.instr b a d) s := by
  rw [exec_instr, exec_instr, arithmetic_swap d ha hb hfit]

end Effect

/-! ## add and multiply as STEPs -/

/-- The opcode cells 1 and 2 ask for the three operand cells of format A (spec/30_encoding.md R55, R57). -/
theorem fetch_of_aluOp_cell {op : AluOp} {s : State} (h : s.cell? s.pc = some (BitVec.ofNat 64 op.code)) :
    fetch s = fetchFormatA op.instr s := by
  rw [fetch_eq_fetchedOf, drop_of_cell?_eq_some h, fetchFormatA_eq_fetchedOf]
  cases op <;> rfl

theorem fetchFormatA_of_operands {s : State} {a b d : Word} (mk : Word → Word → Word → Instr)
    (ha : s.cell? (s.pc + 1) = some a) (hb : s.cell? (s.pc + 2) = some b) (hd : s.cell? (s.pc + 3) = some d) :
    fetchFormatA mk s = .ok (.instr (mk a b d)) := by
  have hcells : s.mem.drop (s.pc + 1) = a :: b :: d :: s.mem.drop (s.pc + 4) := by
    rw [drop_of_cell?_eq_some (n := s.pc + 1) ha, drop_of_cell?_eq_some (n := s.pc + 2) hb,
      drop_of_cell?_eq_some (n := s.pc + 3) hd]
  rw [fetchFormatA_eq_fetchedOf, hcells]
  rfl

/-- The first operand cell that is not there is at `len`. -/
theorem fetchFormatA_of_len_le {s : State} (mk : Word → Word → Word → Instr) (hpc : s.pc < s.len)
    (hlen : s.len ≤ s.pc + 3) : fetchFormatA mk s = .error (.outOfRange .fetch s.len) := by
  have hlength : (s.mem.drop (s.pc + 1)).length = s.len - (s.pc + 1) := List.length_drop
  rw [fetchFormatA_eq_fetchedOf, decodeFormatA_of_lt_three mk (by omega), hlength, fetchedOf,
    show s.pc + (s.len - (s.pc + 1) + 1) = s.len by omega]

/-- Add and multiply as a STEP: each fault where no earlier check fails, and the completion where none does
(spec/60_exceptions.md R97). -/
theorem step_follows_arithmetic_rule {op : AluOp} {s : State} (hr : s.running)
    (hop : s.cell? s.pc = some (BitVec.ofNat 64 op.code)) :
    (s.len ≤ s.pc + 3 → step s = .next (raise s (.outOfRange .fetch s.len))) ∧
    ∀ a b d : Word, s.cell? (s.pc + 1) = some a → s.cell? (s.pc + 2) = some b → s.cell? (s.pc + 3) = some d →
      (¬ s.validAddr (operandAddr a) → step s = .next (raise s (.outOfRange .read (operandAddr a)))) ∧
      (s.validAddr (operandAddr a) → ¬ s.validAddr (operandAddr b) →
        step s = .next (raise s (.outOfRange .read (operandAddr b)))) ∧
      ∀ va vb : Word, s.cell? (operandAddr a) = some va → s.cell? (operandAddr b) = some vb →
        (¬ fits (aluExact op va vb) → step s = .next (raise s (.overflow op va vb))) ∧
        (fits (aluExact op va vb) → ¬ s.validAddr (operandAddr d) →
          step s = .next (raise s (.outOfRange .write (operandAddr d)))) ∧
        (fits (aluExact op va vb) → s.validAddr (operandAddr d) →
          ∃ r : Word, r.toInt = aluExact op va vb ∧
            step s = .next { s with mem := s.mem.set (operandAddr d).toNat r, pc := s.pc + 4 }) := by
  have hfetch := fetch_of_aluOp_cell hop
  refine ⟨fun hlen => step_of_fetch_error hr (hfetch.trans ?_), fun a b d ha hb hd => ?_⟩
  · exact fetchFormatA_of_len_le _ (lt_len_of_cell? hop) hlen
  have hstep : step s = finish s (arithmetic op a b d s) := by
    rw [step_of_fetch_instr hr (hfetch.trans (fetchFormatA_of_operands _ ha hb hd)), exec_instr]
  refine ⟨fun hva => ?_, fun hva hvb => ?_, fun va vb hva hvb => ⟨fun hfit => ?_, fun hfit hdest => ?_,
    fun hfit hdest => ?_⟩⟩
  · rw [hstep, arithmetic_of_no_srcA b d ((cell?_eq_none_iff s _).2 hva)]
    rfl
  · obtain ⟨va, ha'⟩ := exists_cell?_of_validAddr hva
    rw [hstep, arithmetic_of_no_srcB d ha' ((cell?_eq_none_iff s _).2 hvb)]
    rfl
  · rw [hstep, arithmetic_of_not_fits d hva hvb hfit]
    rfl
  · rw [hstep, arithmetic_of_no_dest hva hvb hfit hdest]
    rfl
  · obtain ⟨r, hr', e⟩ := arithmetic_sets_dest hva hvb hfit hdest
    refine ⟨r, hr', ?_⟩
    rw [hstep, e]
    rfl

/-! ## The obligations on arithmetic -/

/-- Settles O16: the exact sum is the result of `AluOp.add`. -/
theorem addWritesTheExactSum : Obligations.AddWritesTheExactSum :=
  fun _ _ _ _ _ _ => exec_instr_completes (op := .add)

/-- Settles O17: the exact product is the result of `AluOp.mul`. -/
theorem mulWritesTheExactProduct : Obligations.MulWritesTheExactProduct :=
  fun _ _ _ _ _ _ => exec_instr_completes (op := .mul)

/-- Settles O19, by the checks that add and multiply share. -/
theorem addStepFollowsItsRule : Obligations.AddStepFollowsItsRule :=
  fun _ => step_follows_arithmetic_rule (op := .add)

/-- Settles O20, by the checks that add and multiply share. -/
theorem mulStepFollowsItsRule : Obligations.MulStepFollowsItsRule :=
  fun _ => step_follows_arithmetic_rule (op := .mul)

/-- Settles O21: the ALU tests the exact result alone. -/
theorem aluIsExactOrOverflows : Obligations.AluIsExactOrOverflows :=
  fun _ _ => ⟨alu_of_fits (op := .add), alu_of_not_fits (op := .add), alu_of_fits (op := .mul),
    alu_of_not_fits (op := .mul)⟩

/-- Settles O22: the state after an overflow is `raise` of the state before. -/
theorem overflowWritesNothing : Obligations.OverflowWritesNothing :=
  fun _ _ _ d _ _ ha hb =>
    ⟨fun hfit => ⟨_, exec_instr_of_not_fits (op := .add) d ha hb hfit, rfl, rfl, rfl, rfl⟩,
      fun hfit => ⟨_, exec_instr_of_not_fits (op := .mul) d ha hb hfit, rfl, rfl, rfl, rfl⟩⟩

/-- Settles O23: the laws of integer addition, through the exact result. -/
theorem addLaws : Obligations.AddLaws := by
  refine ⟨fun x y hfit => ⟨alu_comm (op := .add) hfit, fun r => toInt_of_alu_ok⟩, fun x => ⟨?_, ?_⟩,
    fun s a b d va vb => exec_instr_swap (op := .add) d⟩
  · exact alu_eq_ok_of_exact (Int.add_zero _)
  · exact alu_eq_ok_of_exact (Int.zero_add _)

/-- Settles O24: the laws of integer multiplication, the sign rules among them, through the exact result. -/
theorem mulLaws : Obligations.MulLaws := by
  refine ⟨fun x y hfit => ⟨alu_comm (op := .mul) hfit, fun r h => ?_⟩, fun x => ⟨?_, ?_, ?_, ?_⟩,
    fun s a b d va vb => exec_instr_swap (op := .mul) d⟩
  · have hr : r.toInt = x.toInt * y.toInt := toInt_of_alu_ok h
    rw [hr]
    exact ⟨rfl, mul_pos, mul_neg_of_pos_of_neg, mul_neg_of_neg_of_pos, mul_pos_of_neg_of_neg⟩
  · exact alu_eq_ok_of_exact (Int.mul_one _)
  · exact alu_eq_ok_of_exact (Int.one_mul _)
  · exact alu_eq_ok_of_exact (Int.mul_zero _)
  · exact alu_eq_ok_of_exact (Int.zero_mul _)

end Sys2Proof.Machine

/-! # Control: halt, and how `pc` moves (spec/42_control.md)

Every next state of a step leaves `pc`, or moves it past the cells that were fetched: one row of `StepCase` each. -/

namespace Sys2Proof.Machine

/-! ## halt -/

theorem exec_halt (s : State) : exec .halt s = .next ((s.setPc (s.pc + 1)).setState .halted) := rfl

theorem step_of_no_opcode_cell {s : State} (hr : s.running) (h : s.cell? s.pc = none) :
    step s = .next (raise s (.outOfRange .fetch s.pc)) :=
  step_of_fetch_error hr (fetch_of_len_le_pc (len_le_of_cell?_eq_none h))

/-- `step_of_halt_cell` with the state it leaves written out: the cells after the opcode cell play no part. -/
theorem step_halts_of_halt_cell {s : State} (hr : s.running) (h : s.cell? s.pc = some 99#64) :
    step s = .next ((s.setPc (s.pc + 1)).setState .halted) := by
  rw [step_of_fetch_instr hr (fetch_of_halt_cell h), exec_halt]

/-! ## The movement of `pc` -/

/-- `AluOp.instr` names no third instruction (spec/30_encoding.md R57). -/
theorem fetched_add_or_mul {op : AluOp} {a b d : Word} {s : State} (h : fetch s = .ok (.instr (op.instr a b d))) :
    fetch s = .ok (.instr (.add a b d)) ∨ fetch s = .ok (.instr (.mul a b d)) := by
  cases op with
  | add => exact .inl h
  | mul => exact .inr h

theorem step_moves_pc_past_fetched_cells {s t : State} (h : step s = .next t) :
    (t.pc = s.pc ∧ (s.state = .halted ∨ t.fault ≠ none)) ∨
    (t.pc = s.pc + 4 ∧ ∃ a b d, fetch s = .ok (.instr (.add a b d)) ∨ fetch s = .ok (.instr (.mul a b d))) ∨
    (t.pc = s.pc + 1 ∧ (fetch s = .ok (.instr .halt) ∨ ∃ v, fetch s = .ok (.illegal v))) := by
  cases stepCase_of_eq h with
  | halted hend => exact .inl ⟨rfl, .inl hend.1⟩
  | fetchFault | arithmeticFault => exact .inl ⟨rfl, .inr (Option.some_ne_none _)⟩
  | completed _ hf he =>
    obtain ⟨hpc, -⟩ := arithmetic_ok he
    exact .inr (.inl ⟨hpc, _, _, _, fetched_add_or_mul hf⟩)
  | halt _ hf => exact .inr (.inr ⟨rfl, .inl hf⟩)
  | illegal _ hf => exact .inr (.inr ⟨rfl, .inr ⟨_, hf⟩⟩)

theorem command_keeps_pc {c : Command} {s t : State} {r : Response} (h : command c s = .ok (r, t)) (hstep : c ≠ .step)
    (hrun : c ≠ .run) : t.pc = s.pc := by
  cases commandCase_of_ok h with
  | load | read | write | status => rfl
  | step => exact absurd rfl hstep
  | run => exact absurd rfl hrun

/-! ## The obligations on control -/

/-- Settles O33, by the cases of a step and those of a command. -/
theorem pcMovesOnlyPastFetchedCells : Obligations.PcMovesOnlyPastFetchedCells :=
  ⟨fun _ _ => step_moves_pc_past_fetched_cells, fun _ _ _ _ => command_keeps_pc⟩

/-- Settles O26: halt writes `pc` and the execution state, and has no check to fail. -/
theorem haltCompletes : Obligations.HaltCompletes :=
  fun s => ⟨_, exec_halt s, rfl, rfl, rfl, rfl, fun _ => rfl⟩

/-- Settles O27: the step is decided at the opcode cell, and what it leaves after a 99 is a good end, where a step stays
put. -/
theorem haltStepFollowsItsRule : Obligations.HaltStepFollowsItsRule := by
  refine fun s hr => ⟨step_of_no_opcode_cell hr, fun hcell => ?_⟩
  have hstep := step_halts_of_halt_cell hr hcell
  exact ⟨hstep, fun hlast => ⟨_, hstep, hlast, rfl, hr.2⟩, step_of_goodEnd ⟨rfl, hr.2⟩⟩

end Sys2Proof.Machine

/-! # Exceptions: the fatal fault that stays, and the codes (spec/60_exceptions.md)

From a clear latch the one way to report a fatal fault is `raise`; with the latch set, each command answers from the latch. -/

namespace Sys2Proof.Machine

/-! ## Into the fault -/

theorem eq_raise_of_stepCommand_fatal {s t : State} {f : Fault} (hclear : s.fault = none)
    (h : stepCommand s = .ok (.fatal f, t)) : t = raise s f := by
  cases stepReport_of_ok h with
  | latched hfault => simp [hclear] at hfault
  | raised => rfl

/-! ## Each command with the latch set -/

section Latched

variable {s : State} {f : Fault} (h : s.fault = some f)
include h

theorem command_step_of_fault : command .step s = .ok (.outcome (.fatal f), s) := by
  rw [command, stepCommand_of_fault h, asResponse]

/-- RUN ends at its first STEP, whose outcome it returns. -/
theorem command_run_of_fault : command .run s = .ok (.outcome (.fatal f), s) := by
  rw [command, runCommand_of_stepCommand_fatal (stepCommand_of_fault h), asResponse]

theorem command_status_of_fault : command .status s = .ok (.status s.pc s.state (some f) s.len, s) := by
  rw [← h]
  exact statusAnswersAlways s

theorem unlessFaulted_of_fault (c : Except Refusal (Response × State)) :
    unlessFaulted s c = .error (.afterFatalFault f) := by
  simp [unlessFaulted, h]

theorem command_load_of_fault (p : List Word) : command (.load p) s = .error (.afterFatalFault f) :=
  unlessFaulted_of_fault h _

theorem command_read_of_fault (i : Int) : command (.read i) s = .error (.afterFatalFault f) :=
  unlessFaulted_of_fault h _

theorem command_write_of_fault (i : Int) (v : Word) : command (.write i v) s = .error (.afterFatalFault f) :=
  unlessFaulted_of_fault h _

end Latched

/-! ## The obligations on exceptions -/

/-- Settles O34: a reported fatal fault is raised on the state the step began with, and then every command answers from
the latch. -/
theorem fatalFaultIsForGood : Obligations.FatalFaultIsForGood :=
  ⟨fun _ _ _ hclear => eq_raise_of_stepCommand_fatal hclear,
    fun _ _ h => ⟨step_of_fault h, command_step_of_fault h, command_run_of_fault h, command_status_of_fault h,
      fun p => ⟨_, command_load_of_fault h p⟩, fun i => ⟨_, command_read_of_fault h i⟩,
      fun i v => ⟨_, command_write_of_fault h i v⟩⟩⟩

/-- Settles O41: each code is the one that R98 and R22 list, by the definitions of the codes. -/
theorem outcomeCodesAndStateBit : Obligations.OutcomeCodesAndStateBit :=
  ⟨rfl, fun _ => rfl, fun _ _ => rfl, fun _ _ _ => rfl, rfl, rfl, rfl, rfl, rfl, rfl, rfl⟩

end Sys2Proof.Machine

/-! # Reset: what a newly constructed instance holds (spec/70_reset_and_hazards.md)

Reset is a closed record, so each field is read off its definition; `len` is 0 because the memory is the empty list. That
the invariant and the capacity hold there is `resetMeetsTheInvariant`, above. -/

namespace Sys2Proof.Machine

/-- Settles O1: each field is the one that R26 lists, by the definition of reset. -/
theorem resetIsANewInstance : Obligations.ResetIsANewInstance :=
  ⟨rfl, rfl, rfl, rfl, rfl⟩

end Sys2Proof.Machine
